-- ==== Sys2Proof/Word.lean ====
section
/-! DEFINITION. The widths of the block (00_scope.md R7 to R17) and the types named after them. -/

namespace Sys2Proof

/-- An 8-bit value: a general register, a timer, a memory cell (00_scope.md R8, R14). -/
abbrev Byte := BitVec 8

/-- A 16-bit value: I, PC, a return address, an opcode (00_scope.md R9, R10, R17). -/
abbrev Word := BitVec 16

/-- One of the four 4-bit fields of an opcode (30_encoding.md R51). -/
abbrev Nibble := BitVec 4

/-- The 12-bit address immediate `nnn` (30_encoding.md R52). -/
abbrev Addr12 := BitVec 12

/-- The number of a general register, V0 to VF (10_state.md R20). -/
abbrev Reg := Fin 16

/-- VF, the register that is also the flag (10_state.md R21). -/
abbrev vf : Reg := 15

/-- The number of a key, 0x0 to 0xF (00_scope.md R13). -/
abbrev Key := Fin 16

/-- A column of the framebuffer, counted from the left (10_state.md R30). -/
abbrev Column := Fin 64

/-- A row of the framebuffer, counted from the top (10_state.md R30). -/
abbrev Row := Fin 32

/-- The framebuffer: 32 rows of 64 cells, `true` meaning set (10_state.md R30). -/
abbrev Framebuffer := Vector (Vector Bool 64) 32

/-- A copy of the framebuffer as the FB_OUT port gives it: 2048 cells, row-major (44_display.md R112). -/
abbrev ScreenCopy := Vector Bool 2048

/-- `MEM_SIZE` (00_scope.md R7). -/
abbrev memSize : Nat := 0x1000

/-- `ROM_BASE`, also the entry point (00_scope.md R16; 20_memory.md R36). -/
abbrev romBase : Nat := 0x200

/-- `ROM_MAX` (00_scope.md R16). -/
abbrev romMax : Nat := memSize - romBase

/-- `FONT_END` (00_scope.md R15). -/
abbrev fontEnd : Nat := 0x50

/-- `MAX_SPRITE_ROWS` (00_scope.md R18). -/
abbrev maxSpriteRows : Nat := 15

end Sys2Proof
end

