-- ==== Sys2Proof/Config.lean ====
section
/-! DEFINITION. What a model of the block takes as an argument (its two parameters) and the values the spec leaves
free: the inputs of each step and the state after a fault. -/

namespace Sys2Proof

/-- The font: glyph `d` is 5 bytes, top row first, at address `5 * d` (00_scope.md R15; 20_memory.md R36). -/
abbrev Font := Vector (Vector Byte 5) 16

/-- The parameters of the block (92_eei_decisions.md, "Parameters left open"). A state carries them, and no step
changes them, so a statement about every state holds for every value of both (DESIGN CHOICE, log 4). -/
structure Params where
  /-- `STACK_DEPTH`: how many return addresses the stack holds (00_scope.md R11). -/
  stackDepth : Nat
  /-- `FONT` (20_memory.md R37). -/
  font : Font
  deriving DecidableEq, Repr

/-- The default glyphs of 20_memory.md R37 (PRESUMED, log 4: the spec marks them as general knowledge). -/
def defaultFont : Font :=
  #v[#v[0xF0, 0x90, 0x90, 0x90, 0xF0], #v[0x20, 0x60, 0x20, 0x20, 0x70],
     #v[0xF0, 0x10, 0xF0, 0x80, 0xF0], #v[0xF0, 0x10, 0xF0, 0x10, 0xF0],
     #v[0x90, 0x90, 0xF0, 0x10, 0x10], #v[0xF0, 0x80, 0xF0, 0x10, 0xF0],
     #v[0xF0, 0x80, 0xF0, 0x90, 0xF0], #v[0xF0, 0x10, 0x20, 0x40, 0x40],
     #v[0xF0, 0x90, 0xF0, 0x90, 0xF0], #v[0xF0, 0x90, 0xF0, 0x10, 0xF0],
     #v[0xF0, 0x90, 0xF0, 0x90, 0x90], #v[0xE0, 0x90, 0xE0, 0x90, 0xE0],
     #v[0xF0, 0x80, 0x80, 0x80, 0xF0], #v[0xE0, 0x90, 0x90, 0x90, 0xE0],
     #v[0xF0, 0x80, 0xF0, 0x80, 0xF0], #v[0xF0, 0x80, 0xF0, 0x80, 0x80]]

/-- The default parameters: depth 16 (00_scope.md R11) and the default font (PRESUMED, log 4). -/
def Params.default : Params := { stackDepth := 16, font := defaultFont }

/-! The inputs of a step are free, "under no law" (40_cycle.md R64, R65; 45_keys_timers.md R116). Where the driver's
list of inputs is empty, the step with draw number `k` takes these (log 1). They have no body: nothing can be proved
of their values. -/

/-- KEYS.mask of draw `k` (93_implementation_defined.md U8). -/
opaque Config.freeKeyMask : Nat → BitVec 16
/-- KEYS.last of draw `k` (93_implementation_defined.md U8). -/
opaque Config.freeKeyLast : Nat → Option Key
/-- TICK of draw `k` (93_implementation_defined.md U7). -/
opaque Config.freeTick : Nat → Bool
/-- RND of draw `k` (93_implementation_defined.md U6). -/
opaque Config.freeRnd : Nat → Byte

/-! After a fault "the rest of the state is unspecified" (60_exceptions.md R129; 93_implementation_defined.md U5).
These are the values it then holds, for the fault of the step with draw number `k` (log 6). -/

/-- The general registers after a fault. -/
opaque Config.unspecifiedV : Nat → Vector Byte 16
/-- I after a fault. -/
opaque Config.unspecifiedI : Nat → Word
/-- PC after a fault. -/
opaque Config.unspecifiedPc : Nat → Word
/-- The call stack after a fault. -/
opaque Config.unspecifiedStack : Nat → List Word
/-- DT after a fault. -/
opaque Config.unspecifiedDt : Nat → Byte
/-- ST after a fault. -/
opaque Config.unspecifiedSt : Nat → Byte
/-- The byte of MEM at an address after a fault. -/
opaque Config.unspecifiedByte : Nat → Nat → Byte
/-- The framebuffer after a fault. -/
opaque Config.unspecifiedFb : Nat → Framebuffer
/-- KL.mask after a fault. -/
opaque Config.unspecifiedKeyMask : Nat → BitVec 16
/-- KL.last after a fault. -/
opaque Config.unspecifiedKeyLast : Nat → Option Key

end Sys2Proof
end

