-- ==== Sys2Proof/Syntax.lean ====
section
/-! DEFINITION. The instruction set: one constructor for each of the 35 rows of opcode_table.json (30_encoding.md
R55), in the table's order, named as the decode function of R56 names them. -/

namespace Sys2Proof

/-- The 35 instructions. A register selector is a register number and an immediate is the bits of its field
(30_encoding.md R54). The row count of `drw` is a number, which `Instr.WellFormed` bounds. -/
inductive Instr where
  /-- `0000`, NOP -/
  | nop
  /-- `00E0`, CLS -/
  | cls
  /-- `00EE`, RET -/
  | ret
  /-- `1nnn`, JP nnn -/
  | jp (nnn : Addr12)
  /-- `2nnn`, CALL nnn -/
  | call (nnn : Addr12)
  /-- `3xnn`, SE Vx, nn -/
  | seImm (x : Reg) (nn : Byte)
  /-- `4xnn`, SNE Vx, nn -/
  | sneImm (x : Reg) (nn : Byte)
  /-- `5xy0`, SE Vx, Vy -/
  | seReg (x y : Reg)
  /-- `6xnn`, LD Vx, nn -/
  | ldImm (x : Reg) (nn : Byte)
  /-- `7xnn`, ADD Vx, nn -/
  | addImm (x : Reg) (nn : Byte)
  /-- `8xy0`, LD Vx, Vy -/
  | ldReg (x y : Reg)
  /-- `8xy1`, OR Vx, Vy -/
  | orReg (x y : Reg)
  /-- `8xy2`, AND Vx, Vy -/
  | andReg (x y : Reg)
  /-- `8xy3`, XOR Vx, Vy -/
  | xorReg (x y : Reg)
  /-- `8xy4`, ADD Vx, Vy -/
  | addReg (x y : Reg)
  /-- `8xy5`, SUB Vx, Vy -/
  | sub (x y : Reg)
  /-- `8xy6`, SHR Vx, Vy -/
  | shr (x y : Reg)
  /-- `8xy7`, SUBN Vx, Vy -/
  | subn (x y : Reg)
  /-- `8xyE`, SHL Vx, Vy -/
  | shl (x y : Reg)
  /-- `9xy0`, SNE Vx, Vy -/
  | sneReg (x y : Reg)
  /-- `Annn`, LD I, nnn -/
  | ldI (nnn : Addr12)
  /-- `Bnnn`, JP V0, nnn -/
  | jpV0 (nnn : Addr12)
  /-- `Cxnn`, RND Vx, nn -/
  | rnd (x : Reg) (nn : Byte)
  /-- `Dxyn`, DRW Vx, Vy, n -/
  | drw (x y : Reg) (n : Nat)
  /-- `Ex9E`, SKP Vx -/
  | skp (x : Reg)
  /-- `ExA1`, SKNP Vx -/
  | sknp (x : Reg)
  /-- `Fx07`, LD Vx, DT -/
  | ldVxDt (x : Reg)
  /-- `Fx0A`, LD Vx, K -/
  | ldVxK (x : Reg)
  /-- `Fx15`, LD DT, Vx -/
  | ldDt (x : Reg)
  /-- `Fx18`, LD ST, Vx -/
  | ldSt (x : Reg)
  /-- `Fx1E`, ADD I, Vx -/
  | addI (x : Reg)
  /-- `Fx29`, LD F, Vx -/
  | ldF (x : Reg)
  /-- `Fx33`, LD B, Vx -/
  | ldB (x : Reg)
  /-- `Fx55`, LD [I], Vx -/
  | ldStore (x : Reg)
  /-- `Fx65`, LD Vx, [I] -/
  | ldLoad (x : Reg)
  deriving DecidableEq, Repr

end Sys2Proof
end

