-- ==== Sys2Proof/WellFormed.lean ====
section
/-! DEFINITION. What makes a term of the syntax, a parameter set or a ROM one the block can be given. -/

namespace Sys2Proof

/-- How many sprite rows an instruction names: `n` of `Dxyn`, none in any other (30_encoding.md R54). -/
def Instr.rowCount : Instr → Nat
  | .drw _ _ n => n
  | .nop | .cls | .ret | .jp _ | .call _ | .seImm _ _ | .sneImm _ _ | .seReg _ _ | .ldImm _ _ | .addImm _ _
  | .ldReg _ _ | .orReg _ _ | .andReg _ _ | .xorReg _ _ | .addReg _ _ | .sub _ _ | .shr _ _ | .subn _ _
  | .shl _ _ | .sneReg _ _ | .ldI _ | .jpV0 _ | .rnd _ _ | .skp _ | .sknp _ | .ldVxDt _ | .ldVxK _
  | .ldDt _ | .ldSt _ | .addI _ | .ldF _ | .ldB _ | .ldStore _ | .ldLoad _ => 0

/-- An instruction is well-formed when its operands fit their fields. Register selectors and the immediates `nn` and
`nnn` fit by their types, so the one check is that a sprite has at most 15 rows (00_scope.md R18). -/
abbrev Instr.WellFormed (i : Instr) : Prop := i.rowCount ≤ maxSpriteRows

/-- The stack depth is at least 1 (00_scope.md R11). -/
abbrev Params.WellFormed (p : Params) : Prop := 1 ≤ p.stackDepth

/-- The ROM fits in memory above `ROM_BASE` (00_scope.md R16; 70_reset_and_hazards.md R140). -/
abbrev RomFits (rom : List Byte) : Prop := rom.length ≤ romMax

end Sys2Proof
end

