-- ==== Sys2Proof/Decode.lean ====
section
/-! DEFINITION. From bits to instructions and back (30_encoding.md): the fields of an opcode, the decoder, the encoder,
the opcode table as rows of mask and match, and the diagnostic text. -/

namespace Sys2Proof

/-! ## Fields (R52) -/

/-- Nibble `n3`, `op[15:12]`: the family. -/
def fieldOp (op : Word) : Nibble := op.extractLsb' 12 4
/-- `x`, `op[11:8]`, as a register number. -/
def fieldX (op : Word) : Reg := (op.extractLsb' 8 4).toFin
/-- `y`, `op[7:4]`, as a register number. -/
def fieldY (op : Word) : Reg := (op.extractLsb' 4 4).toFin
/-- `n`, `op[3:0]`. -/
def fieldN (op : Word) : Nibble := op.extractLsb' 0 4
/-- `nn`, `op[7:0]`. -/
def fieldNN (op : Word) : Byte := op.extractLsb' 0 8
/-- `nnn`, `op[11:0]`. -/
def fieldNNN (op : Word) : Addr12 := op.extractLsb' 0 12

/-! ## Decoding (R53, R56, R57) -/

/-- Why bytes are no instruction. -/
inductive DecodeReject where
  /-- The word matches no row of the opcode table (R57); the step then ends with `UnknownInstruction`, so this is no
  departure from the spec (safe). -/
  | unknown (op : Word)
  /-- Fewer than two bytes are given (R60: every instruction is exactly 2 bytes; safe). -/
  | truncated
  deriving DecidableEq, Repr

/-- The `0` family (R56): three exact values. -/
def decode0 (op : Word) : Except DecodeReject Instr :=
  if op = 0x0000 then .ok .nop
  else if op = 0x00E0 then .ok .cls
  else if op = 0x00EE then .ok .ret
  else .error (.unknown op)

/-- The `8` family (R56), by `op[3:0]`. -/
def decode8 (op : Word) : Except DecodeReject Instr :=
  match (fieldN op).toNat with
  | 0x0 => .ok (.ldReg (fieldX op) (fieldY op))
  | 0x1 => .ok (.orReg (fieldX op) (fieldY op))
  | 0x2 => .ok (.andReg (fieldX op) (fieldY op))
  | 0x3 => .ok (.xorReg (fieldX op) (fieldY op))
  | 0x4 => .ok (.addReg (fieldX op) (fieldY op))
  | 0x5 => .ok (.sub (fieldX op) (fieldY op))
  | 0x6 => .ok (.shr (fieldX op) (fieldY op))
  | 0x7 => .ok (.subn (fieldX op) (fieldY op))
  | 0xE => .ok (.shl (fieldX op) (fieldY op))
  | _ => .error (.unknown op)

/-- The `E` family (R56), by `op[7:0]`. -/
def decodeE (op : Word) : Except DecodeReject Instr :=
  match (fieldNN op).toNat with
  | 0x9E => .ok (.skp (fieldX op))
  | 0xA1 => .ok (.sknp (fieldX op))
  | _ => .error (.unknown op)

/-- The `F` family (R56), by `op[7:0]`. -/
def decodeF (op : Word) : Except DecodeReject Instr :=
  match (fieldNN op).toNat with
  | 0x07 => .ok (.ldVxDt (fieldX op))
  | 0x0A => .ok (.ldVxK (fieldX op))
  | 0x15 => .ok (.ldDt (fieldX op))
  | 0x18 => .ok (.ldSt (fieldX op))
  | 0x1E => .ok (.addI (fieldX op))
  | 0x29 => .ok (.ldF (fieldX op))
  | 0x33 => .ok (.ldB (fieldX op))
  | 0x55 => .ok (.ldStore (fieldX op))
  | 0x65 => .ok (.ldLoad (fieldX op))
  | _ => .error (.unknown op)

/-- `decode(op)` of R56: the instruction of an opcode, or the opcode rejected as unknown. -/
def decode (op : Word) : Except DecodeReject Instr :=
  match (fieldOp op).toNat with
  | 0x0 => decode0 op
  | 0x1 => .ok (.jp (fieldNNN op))
  | 0x2 => .ok (.call (fieldNNN op))
  | 0x3 => .ok (.seImm (fieldX op) (fieldNN op))
  | 0x4 => .ok (.sneImm (fieldX op) (fieldNN op))
  | 0x5 => if fieldN op = 0 then .ok (.seReg (fieldX op) (fieldY op)) else .error (.unknown op)
  | 0x6 => .ok (.ldImm (fieldX op) (fieldNN op))
  | 0x7 => .ok (.addImm (fieldX op) (fieldNN op))
  | 0x8 => decode8 op
  | 0x9 => if fieldN op = 0 then .ok (.sneReg (fieldX op) (fieldY op)) else .error (.unknown op)
  | 0xA => .ok (.ldI (fieldNNN op))
  | 0xB => .ok (.jpV0 (fieldNNN op))
  | 0xC => .ok (.rnd (fieldX op) (fieldNN op))
  | 0xD => .ok (.drw (fieldX op) (fieldY op) (fieldN op).toNat)
  | 0xE => decodeE op
  | _ => decodeF op

/-- The opcode of two bytes, the byte at the lower address the more significant (20_memory.md R41). -/
def wordOfBytes (hi lo : Byte) : Word := BitVec.ofNat 16 (hi.toNat * 256 + lo.toNat)

/-- The two bytes of an opcode, in memory order (20_memory.md R41). -/
def bytesOfWord (w : Word) : List Byte := [w.extractLsb' 8 8, w.extractLsb' 0 8]

/-- Decoding from bytes: the instruction at the front and the bytes after it. -/
def decodeBytes : List Byte → Except DecodeReject (Instr × List Byte)
  | hi :: lo :: rest => (decode (wordOfBytes hi lo)).map fun i => (i, rest)
  | [_] | [] => .error .truncated

/-- What the decoder reads from an instruction whose bits are `w`, numbered as opcode_table.json numbers them; bits at
or above `nbits` are 0. -/
def decodeTableWord (nbits w : Nat) : Option Instr :=
  (decodeBytes (bytesOfWord (BitVec.ofNat 16 (w % 2 ^ nbits)))).toOption.map Prod.fst

/-! ## Encoding (R55) -/

/-- A field's bits put at bit `lo` of an opcode. -/
def place {w : Nat} (field : BitVec w) (lo : Nat) : Word := field.setWidth 16 <<< lo

/-- The bits of a register selector. -/
def regBits (r : Reg) : Nibble := BitVec.ofFin r

/-- Format `op4-nnn`. -/
def packNNN (op : Nibble) (nnn : Addr12) : Word := place op 12 ||| place nnn 0
/-- Formats `op4-x-nn` and `op4-x-op8`. -/
def packXNN (op : Nibble) (x : Reg) (nn : Byte) : Word := place op 12 ||| place (regBits x) 8 ||| place nn 0
/-- Formats `op4-x-y-n` and `op4-x-y-op4`. -/
def packXYN (op : Nibble) (x y : Reg) (n : Nibble) : Word :=
  place op 12 ||| place (regBits x) 8 ||| place (regBits y) 4 ||| place n 0

/-- The opcode of an instruction, from the patterns of R55. -/
def encode : Instr → Word
  | .nop => 0x0000
  | .cls => 0x00E0
  | .ret => 0x00EE
  | .jp nnn => packNNN 0x1 nnn
  | .call nnn => packNNN 0x2 nnn
  | .seImm x nn => packXNN 0x3 x nn
  | .sneImm x nn => packXNN 0x4 x nn
  | .seReg x y => packXYN 0x5 x y 0x0
  | .ldImm x nn => packXNN 0x6 x nn
  | .addImm x nn => packXNN 0x7 x nn
  | .ldReg x y => packXYN 0x8 x y 0x0
  | .orReg x y => packXYN 0x8 x y 0x1
  | .andReg x y => packXYN 0x8 x y 0x2
  | .xorReg x y => packXYN 0x8 x y 0x3
  | .addReg x y => packXYN 0x8 x y 0x4
  | .sub x y => packXYN 0x8 x y 0x5
  | .shr x y => packXYN 0x8 x y 0x6
  | .subn x y => packXYN 0x8 x y 0x7
  | .shl x y => packXYN 0x8 x y 0xE
  | .sneReg x y => packXYN 0x9 x y 0x0
  | .ldI nnn => packNNN 0xA nnn
  | .jpV0 nnn => packNNN 0xB nnn
  | .rnd x nn => packXNN 0xC x nn
  | .drw x y n => packXYN 0xD x y (BitVec.ofNat 4 n)
  | .skp x => packXNN 0xE x 0x9E
  | .sknp x => packXNN 0xE x 0xA1
  | .ldVxDt x => packXNN 0xF x 0x07
  | .ldVxK x => packXNN 0xF x 0x0A
  | .ldDt x => packXNN 0xF x 0x15
  | .ldSt x => packXNN 0xF x 0x18
  | .addI x => packXNN 0xF x 0x1E
  | .ldF x => packXNN 0xF x 0x29
  | .ldB x => packXNN 0xF x 0x33
  | .ldStore x => packXNN 0xF x 0x55
  | .ldLoad x => packXNN 0xF x 0x65

/-! ## The opcode table as data (R55) -/

/-- A row of the opcode map: the bits its pattern fixes, and their values. -/
structure OpcodeRow where
  mask : Word
  value : Word
  deriving DecidableEq, Repr

/-- `op & mask = match` (R56). -/
def OpcodeRow.covers (r : OpcodeRow) (op : Word) : Bool := op &&& r.mask == r.value

/-- The row of each instruction (R55). -/
def Instr.row : Instr → OpcodeRow
  | .nop => ⟨0xFFFF, 0x0000⟩
  | .cls => ⟨0xFFFF, 0x00E0⟩
  | .ret => ⟨0xFFFF, 0x00EE⟩
  | .jp _ => ⟨0xF000, 0x1000⟩
  | .call _ => ⟨0xF000, 0x2000⟩
  | .seImm _ _ => ⟨0xF000, 0x3000⟩
  | .sneImm _ _ => ⟨0xF000, 0x4000⟩
  | .seReg _ _ => ⟨0xF00F, 0x5000⟩
  | .ldImm _ _ => ⟨0xF000, 0x6000⟩
  | .addImm _ _ => ⟨0xF000, 0x7000⟩
  | .ldReg _ _ => ⟨0xF00F, 0x8000⟩
  | .orReg _ _ => ⟨0xF00F, 0x8001⟩
  | .andReg _ _ => ⟨0xF00F, 0x8002⟩
  | .xorReg _ _ => ⟨0xF00F, 0x8003⟩
  | .addReg _ _ => ⟨0xF00F, 0x8004⟩
  | .sub _ _ => ⟨0xF00F, 0x8005⟩
  | .shr _ _ => ⟨0xF00F, 0x8006⟩
  | .subn _ _ => ⟨0xF00F, 0x8007⟩
  | .shl _ _ => ⟨0xF00F, 0x800E⟩
  | .sneReg _ _ => ⟨0xF00F, 0x9000⟩
  | .ldI _ => ⟨0xF000, 0xA000⟩
  | .jpV0 _ => ⟨0xF000, 0xB000⟩
  | .rnd _ _ => ⟨0xF000, 0xC000⟩
  | .drw _ _ _ => ⟨0xF000, 0xD000⟩
  | .skp _ => ⟨0xF0FF, 0xE09E⟩
  | .sknp _ => ⟨0xF0FF, 0xE0A1⟩
  | .ldVxDt _ => ⟨0xF0FF, 0xF007⟩
  | .ldVxK _ => ⟨0xF0FF, 0xF00A⟩
  | .ldDt _ => ⟨0xF0FF, 0xF015⟩
  | .ldSt _ => ⟨0xF0FF, 0xF018⟩
  | .addI _ => ⟨0xF0FF, 0xF01E⟩
  | .ldF _ => ⟨0xF0FF, 0xF029⟩
  | .ldB _ => ⟨0xF0FF, 0xF033⟩
  | .ldStore _ => ⟨0xF0FF, 0xF055⟩
  | .ldLoad _ => ⟨0xF0FF, 0xF065⟩

/-- The opcode map of R55, as the rows of the 35 instructions. -/
def opcodeMap : List OpcodeRow :=
  [Instr.nop, .cls, .ret, .jp 0, .call 0, .seImm 0 0, .sneImm 0 0].map Instr.row ++
  [Instr.seReg 0 0, .ldImm 0 0, .addImm 0 0, .ldReg 0 0, .orReg 0 0, .andReg 0 0, .xorReg 0 0].map Instr.row ++
  [Instr.addReg 0 0, .sub 0 0, .shr 0 0, .subn 0 0, .shl 0 0, .sneReg 0 0, .ldI 0].map Instr.row ++
  [Instr.jpV0 0, .rnd 0 0, .drw 0 0 0, .skp 0, .sknp 0, .ldVxDt 0, .ldVxK 0].map Instr.row ++
  [Instr.ldDt 0, .ldSt 0, .addI 0, .ldF 0, .ldB 0, .ldStore 0, .ldLoad 0].map Instr.row

/-! ## Diagnostic text (R62) -/

/-- One hexadecimal digit, upper case (R62; 92_eei_decisions.md D22). -/
def hexDigit (d : Nibble) : Char :=
  if d.toNat < 10 then Char.ofNat (0x30 + d.toNat) else Char.ofNat (0x41 + (d.toNat - 10))

/-- "The raw value as 4 hex digits" (R62). It has no effect on the machine. -/
def diagnosticText (op : Word) : String :=
  String.ofList [hexDigit (fieldOp op), hexDigit (regBits (fieldX op)), hexDigit (regBits (fieldY op)),
    hexDigit (fieldN op)]

end Sys2Proof
end

