-- ==== Sys2Proof/Machine/State.lean ====
section
/-! DEFINITION. The state of the block (10_state.md), as plain data, its reset value, and the reasons a step can stop.
Memory is held as the cells that differ from the reset contents of a block built from the empty ROM
(`Memory.unlisted`, log 10). -/

namespace Sys2Proof.Machine

/-- Why the block has stopped: the four contract violations of 60_exceptions.md R129. An instruction that violates the
contract records its reason in STATUS (`State.raise`); the step of a block that is Faulted stops with it
(40_cycle.md R67). Safe: the spec's block does no more than that either. -/
inductive Fault where
  /-- Recorded by `00EE` on an empty stack (41_control_flow.md R80); reported by every step after it. Safe. -/
  | stackUnderflow
  /-- Recorded by `2nnn` on a full stack (41_control_flow.md R82); reported by every step after it. Safe. -/
  | stackOverflow
  /-- Recorded by `Dxyn`, `Fx33`, `Fx55`, `Fx65` when the range starting at I leaves memory (20_memory.md R39); reported
  by every step after it. Safe. -/
  | memRange
  /-- Recorded by `Ex9E`, `ExA1` when Vx is no key number (45_keys_timers.md R117); reported by every step after it.
  Safe. -/
  | keyRange
  deriving DecidableEq, Repr

/-- Why the model has no meaning for an instruction. No arm of `exec` refuses: "No behaviour of the block is treated as
`refuse`" (93_implementation_defined.md section 1). -/
inductive Refusal where
  /-- The instruction has no meaning yet; raised by no arm of `exec`. Safe: a refusal ends the run. -/
  | notModelled (mnemonic : String)
  deriving DecidableEq, Repr

/-- STATUS (10_state.md R32). -/
inductive Status where
  | running
  | faulted (reason : Fault)
  deriving DecidableEq, Repr

/-- A Keys value: what the driver presents and what KL latches (10_state.md R31; 45_keys_timers.md R115). -/
structure Keys where
  /-- Bit `k` is 1 if and only if key `k` is held. -/
  mask : BitVec 16
  /-- The last key pressed, if any. -/
  last : Option Key
  deriving DecidableEq, Repr

/-- The inputs of one step (40_cycle.md R63). -/
structure StepInput where
  keys : Keys
  tick : Bool
  rnd : Byte
  deriving DecidableEq, Repr

/-- The outputs of one step: STATUS_OUT, and on `Ok` what goes with it (40_cycle.md R63, R74; 60_exceptions.md R126). A
port that a step does not drive has no place in its constructor. -/
inductive StepOutput where
  /-- `Ok`. `screen` is FB_OUT when REDRAW = 1 and `none` when REDRAW = 0; `beep` is BEEP. -/
  | ok (screen : Option ScreenCopy) (beep : Bool)
  /-- `NoMoreInstructions` (40_cycle.md R69). -/
  | noMoreInstructions
  /-- `UnknownInstruction(opcode, pc)` (40_cycle.md R71). -/
  | unknownInstruction (opcode pc : Word)
  /-- `Fault(reason)` (60_exceptions.md R129). -/
  | fault (reason : Fault)
  deriving DecidableEq, Repr

/-- Memory: cells in canonical form, `Memory.wf` (log 10). -/
abbrev Memory := List Host.Cell

/-- The state of the block, with its parameters and its ports. -/
structure State where
  /-- V0 to VF (10_state.md R20). -/
  v : Vector Byte 16
  /-- I (10_state.md R23). -/
  i : Word
  /-- PC (10_state.md R24). -/
  pc : Word
  /-- S, oldest return address first (10_state.md R26). -/
  stack : List Word
  /-- DT (10_state.md R27). -/
  dt : Byte
  /-- ST (10_state.md R28). -/
  st : Byte
  /-- MEM (10_state.md R29). -/
  mem : Memory
  /-- FB (10_state.md R30). -/
  fb : Framebuffer
  /-- KL (10_state.md R31). -/
  kl : Keys
  /-- STATUS (10_state.md R32). -/
  status : Status
  /-- STACK_DEPTH and FONT, which no step changes (DESIGN CHOICE, log 4). -/
  params : Params
  /-- What the driver will present to the next steps, the next one first; where the list is empty the inputs are free
  values (DESIGN CHOICE, log 1). -/
  inputs : List StepInput
  /-- The input ports as the present step sampled them (40_cycle.md R63; DESIGN CHOICE, log 2). -/
  ports : StepInput
  /-- How many steps have sampled their inputs: the model's own counter, which the free values are indexed by (DESIGN
  CHOICE, log 1). -/
  draws : Nat
  /-- The outputs of the last step, if a step has ended (40_cycle.md R63; DESIGN CHOICE, log 3). -/
  out : Option StepOutput
  deriving DecidableEq, Repr

/-- KL at construction (10_state.md R31), and the ports before the first step (DESIGN CHOICE, log 2). -/
def Keys.none : Keys := { mask := 0, last := Option.none }

/-- The block right after construction from the empty ROM, with the default parameters (70_reset_and_hazards.md R140;
log 4, log 9). The ports and the draw counter start as log 1 to log 3 say. -/
def State.reset : State where
  v := Vector.replicate 16 0
  i := 0
  pc := 0x200
  stack := []
  dt := 0
  st := 0
  mem := []
  fb := Vector.replicate 32 (Vector.replicate 64 false)
  kl := Keys.none
  status := .running
  params := Params.default
  inputs := []
  ports := { keys := Keys.none, tick := false, rnd := 0 }
  draws := 0
  out := Option.none

end Sys2Proof.Machine
end

