-- ==== Sys2Proof/Machine/Ops.lean ====
section
/-! DEFINITION. The operations every meaning is written over: memory, registers, the call stack, the key latch, and the
one way a fault is raised. -/

namespace Sys2Proof.Machine

/-- What a meaning answers. -/
abbrev Outcome := Host.Outcome State Fault Refusal

/-! ## Memory -/

/-- What an address no cell lists reads as: the contents MEM has in a block built from the empty ROM (20_memory.md
R38; log 10). Above the font, and outside memory, it is 0 (log 11). -/
def Memory.unlisted (p : Params) (a : Nat) : Byte :=
  if h : a < fontEnd then
    have glyph : a / 5 < 16 := by unfold fontEnd at h; omega
    have row : a % 5 < 5 := Nat.mod_lt a (by decide)
    p.font[a / 5][a % 5]
  else 0

/-- The byte at one address. -/
def Memory.read (p : Params) : Memory → Nat → Byte
  | [], a => Memory.unlisted p a
  | (k, b) :: m, a => if k = a then b else Memory.read p m a

/-- One byte written. Writing what the address reads as when unlisted removes its cell. -/
def Memory.write (p : Params) : Memory → Nat → Byte → Memory
  | [], a, b => if b = Memory.unlisted p a then [] else [(a, b)]
  | (k, c) :: m, a, b =>
    if a < k then (if b = Memory.unlisted p a then (k, c) :: m else (a, b) :: (k, c) :: m)
    else if a = k then (if b = Memory.unlisted p a then m else (a, b) :: m)
    else (k, c) :: Memory.write p m a b

/-- Bytes written at ascending addresses from `a`. -/
def Memory.writeAll (p : Params) : Memory → Nat → List Byte → Memory
  | m, _, [] => m
  | m, a, b :: bs => Memory.writeAll p (Memory.write p m a b) (a + 1) bs

/-- The `n` bytes at ascending addresses from `a`. -/
def Memory.readAll (p : Params) (m : Memory) (a n : Nat) : List Byte :=
  (List.range n).map fun k => Memory.read p m (a + k)

/-- The memory whose byte at every address of the address space is `f` of it. (Irreducible, so that comparing two
states never lists 4096 cells.) -/
@[irreducible] def Memory.build (p : Params) (f : Nat → Byte) : Memory :=
  ((List.range memSize).filter fun a => f a ≠ Memory.unlisted p a).map fun a => (a, f a)

/-- The canonical form: addresses strictly rising and inside memory, and no cell that says what its address reads as
when unlisted. -/
abbrev Memory.wf (p : Params) (m : Memory) : Prop :=
  m.Pairwise (fun c d => c.1 < d.1) ∧ ∀ c ∈ m, c.1 < memSize ∧ c.2 ≠ Memory.unlisted p c.1

/-! ## Components of the state -/

/-- The state with other general registers. -/
def State.setV (s : State) (v : Vector Byte 16) : State := { s with v := v }
/-- The state with another I. -/
def State.setI (s : State) (a : Word) : State := { s with i := a }
/-- The state with another PC. -/
def State.setPc (s : State) (a : Word) : State := { s with pc := a }
/-- The state with another call stack. -/
def State.setStack (s : State) (l : List Word) : State := { s with stack := l }
/-- The state with another DT. -/
def State.setDt (s : State) (b : Byte) : State := { s with dt := b }
/-- The state with another ST. -/
def State.setSt (s : State) (b : Byte) : State := { s with st := b }
/-- The state with another memory. -/
def State.setMem (s : State) (m : Memory) : State := { s with mem := m }
/-- The state with another framebuffer. -/
def State.setFb (s : State) (fb : Framebuffer) : State := { s with fb := fb }
/-- The state with another key latch. -/
def State.setKl (s : State) (k : Keys) : State := { s with kl := k }
/-- The state with other outputs. -/
def State.setOut (s : State) (o : StepOutput) : State := { s with out := some o }

/-- `V[r]` (10_state.md R20: no register is hardwired). -/
def State.reg (s : State) (r : Reg) : Byte := s.v[r.val]

/-- `V[r] <- b`. -/
def State.setReg (s : State) (r : Reg) (b : Byte) : State := s.setV (s.v.set r b)

/-- The values of V0 to Vx, in order (43_index_memory.md R106). -/
def State.regsUpTo (s : State) (x : Reg) : List Byte := s.v.toList.take (x.val + 1)

/-- `V[k], V[k+1], … <- bs` (43_index_memory.md R107). -/
def loadFrom (v : Vector Byte 16) : Nat → List Byte → Vector Byte 16
  | _, [] => v
  | k, b :: bs => loadFrom (v.setIfInBounds k b) (k + 1) bs

/-- `for k: V[k] <- bs[k]`. -/
def State.loadRegs (s : State) (bs : List Byte) : State := s.setV (loadFrom s.v 0 bs)

/-- The byte of MEM at one address. -/
def State.readByte (s : State) (a : Nat) : Byte := Memory.read s.params s.mem a

/-! ## Operations that can fault -/

/-- `MemRead(a, n)`: the whole range is checked before any byte is read (20_memory.md R39, R40). -/
def State.memRead (s : State) (a n : Nat) : Except Fault (List Byte) :=
  if a + n ≤ memSize then .ok (Memory.readAll s.params s.mem a n) else .error .memRange

/-- `MemWrite(a, |bs|, bs)`: the whole range is checked before any byte is written (20_memory.md R39, R40). -/
def State.memWrite (s : State) (a : Nat) (bs : List Byte) : Except Fault State :=
  if a + bs.length ≤ memSize then .ok (s.setMem (Memory.writeAll s.params s.mem a bs)) else .error .memRange

/-- `push(a)`, on a stack that does not hold STACK_DEPTH entries (41_control_flow.md R82; log 8). -/
def State.push (s : State) (a : Word) : Except Fault State :=
  if s.stack.length < s.params.stackDepth then .ok (s.setStack (s.stack ++ [a])) else .error .stackOverflow

/-- `pop()`: the last entry and the state without it (41_control_flow.md R80). -/
def State.pop (s : State) : Except Fault (Word × State) :=
  match s.stack.getLast? with
  | none => .error .stackUnderflow
  | some a => .ok (a, s.setStack s.stack.dropLast)

/-- Whether the latched mask says key `k` is held; a `k` above 0xF is no key (45_keys_timers.md R117 to R119). -/
def State.keyHeld (s : State) (k : Byte) : Except Fault Bool :=
  if k.toNat ≤ 0xF then .ok (s.kl.mask.getLsbD k.toNat) else .error .keyRange

/-! ## Raising a fault -/

/-- A contract violation (60_exceptions.md R129): STATUS becomes `Faulted(reason)`, STATUS_OUT is `Fault(reason)`, and
everything else the spec calls the block's state is unspecified, so a free value (log 5, log 6). The parameters and the
driver's inputs are not the block's state. -/
def State.raise (s : State) (reason : Fault) : State where
  v := Config.unspecifiedV s.draws
  i := Config.unspecifiedI s.draws
  pc := Config.unspecifiedPc s.draws
  stack := Config.unspecifiedStack s.draws
  dt := Config.unspecifiedDt s.draws
  st := Config.unspecifiedSt s.draws
  mem := Memory.build s.params (Config.unspecifiedByte s.draws)
  fb := Config.unspecifiedFb s.draws
  kl := { mask := Config.unspecifiedKeyMask s.draws, last := Config.unspecifiedKeyLast s.draws }
  status := .faulted reason
  params := s.params
  inputs := s.inputs
  ports := s.ports
  draws := s.draws
  out := some (.fault reason)

/-- The end of an execute phase that can fault: the state it reached, or the fault raised in the state it began in. -/
def State.complete (s : State) : Except Fault State → Outcome
  | .ok t => .next t
  | .error reason => .next (s.raise reason)

end Sys2Proof.Machine
end

