-- ==== Sys2Proof/Machine/Operands.lean ====
section
/-! DEFINITION. How operands are formed (30_encoding.md R54; 43_index_memory.md): immediates, the address in I, jump
and skip targets, decimal digits, key numbers. No operand is signed. -/

namespace Sys2Proof.Machine

/-- `zext_16(nnn)` (R54). -/
def zext16 (nnn : Addr12) : Word := nnn.setWidth 16

/-- The start of a data access: I, as an exact address (43_index_memory.md; 20_memory.md R39). -/
def State.dataAddr (s : State) : Nat := s.i.toNat

/-- The target of `Bnnn`: the exact sum `nnn + V0`, at most 0x10FE (41_control_flow.md R87). -/
def sumTarget (nnn : Addr12) (v0 : Byte) : Word := BitVec.ofNat 16 (nnn.toNat + v0.toNat)

/-- PC after a skip that is taken when `c` holds; PC is already the fetch address + 2 (41_control_flow.md R78). -/
def skipTarget (c : Bool) (pc : Word) : Word := if c then pc + 2 else pc

/-- The state after a skip instruction whose condition is `c` (41_control_flow.md R78). -/
def State.skipIf (s : State) (c : Bool) : State := s.setPc (skipTarget c s.pc)

/-- PC after `Fx0A`: rolled back to the instruction itself while no key was pressed (45_keys_timers.md R120). -/
def waitTarget (pressed : Option Key) (pc : Word) : Word := if pressed.isNone then pc - 2 else pc

/-- A key number as a register value. -/
def keyByte (k : Key) : Byte := BitVec.ofNat 8 k.val

/-- The three decimal digits of a byte: hundreds, tens, ones (43_index_memory.md R105). -/
def decimalDigits (b : Byte) : List Byte :=
  [BitVec.ofNat 8 (b.toNat / 100), BitVec.ofNat 8 (b.toNat / 10 % 10), BitVec.ofNat 8 (b.toNat % 10)]

/-- The address of glyph `d`, `5 * d`, exact (43_index_memory.md R104). -/
def glyphAddr (d : Byte) : Word := BitVec.ofNat 16 (5 * d.toNat)

/-- `trunc_16(I + Vx)` (43_index_memory.md R103). -/
def indexSum (i : Word) (b : Byte) : Word := BitVec.ofNat 16 (i.toNat + b.toNat)

/-- `I + x + 1`, at most 0x1000 where the access was in bounds (43_index_memory.md R106, R107). -/
def indexPast (i : Word) (x : Reg) : Word := BitVec.ofNat 16 (i.toNat + x.val + 1)

end Sys2Proof.Machine
end

