-- ==== Sys2Proof/Machine/Flags.lean ====
section
/-! DEFINITION. The 8-bit arithmetic of 42_alu.md, exact and then narrowed (R88), every value VF takes as a flag (R89,
R96 to R100; 44_display.md R110), and the two orders in which a result and a flag are written (40_cycle.md R73). -/

namespace Sys2Proof.Machine

/-- A flag in an 8-bit register: 1 for true, 0 for false (44_display.md R110). -/
def flagByte (c : Bool) : Byte := if c then 1 else 0

/-- `trunc_8(a + b)` (R88). -/
def sumByte (a b : Byte) : Byte := BitVec.ofNat 8 (a.toNat + b.toNat)

/-- Carry: `a + b > 255` (R88, R96). -/
def carry (a b : Byte) : Bool := decide (255 < a.toNat + b.toNat)

/-- `trunc_8(a - b + 256)` (R88). -/
def diffByte (a b : Byte) : Byte := BitVec.ofNat 8 (a.toNat + 256 - b.toNat)

/-- NOT borrow of `a - b`: `a >= b` (R89). -/
def notBorrow (a b : Byte) : Bool := decide (b.toNat ≤ a.toNat)

/-- `a >> 1`, that is `a div 2` (R88, R99). -/
def halfByte (a : Byte) : Byte := BitVec.ofNat 8 (a.toNat / 2)

/-- `trunc_8(a << 1)` (R88, R100). -/
def doubleByte (a : Byte) : Byte := BitVec.ofNat 8 (2 * a.toNat)

/-- Bit 0, the "pre-shift LSB" (R99). -/
def lowBit (a : Byte) : Bool := a.getLsbD 0

/-- Bit 7, the "pre-shift MSB" (R100). -/
def highBit (a : Byte) : Bool := a.getLsbD 7

/-- A result written to Vx and then a flag to VF: with x = F the flag stays (40_cycle.md R73). -/
def State.setRegThenFlag (s : State) (x : Reg) (result flag : Byte) : State := (s.setReg x result).setReg vf flag

/-- A flag written to VF and then a result to Vx: with x = F the result stays (40_cycle.md R73). -/
def State.setFlagThenReg (s : State) (x : Reg) (result flag : Byte) : State := (s.setReg vf flag).setReg x result

end Sys2Proof.Machine
end

