-- ==== Sys2Proof/Machine/Display.lean ====
section
/-! DEFINITION. The framebuffer, the sprite rasterizer and the display instructions (44_display.md). -/

namespace Sys2Proof.Machine

/-! ## The rasterizer -/

/-- `FB[y][x]`. -/
def fbCell (fb : Framebuffer) (x : Column) (y : Row) : Bool := fb[y.val][x.val]

/-- `FB[y][x] <- not FB[y][x]`. -/
def fbFlip (fb : Framebuffer) (x : Column) (y : Row) : Framebuffer := fb.set y (fb[y.val].set x (!fbCell fb x y))

/-- `clear()` (R111). -/
def fbClear : Framebuffer := Vector.replicate 32 (Vector.replicate 64 false)

/-- The bit of a sprite row drawn `c` columns from its left end: bit 7 is leftmost (R108). -/
def rowBit (b : Byte) (c : Nat) : Bool := b.getLsbD (7 - c)

/-- One sprite bit drawn on one cell: a 1 inverts the cell, and collides if the cell was set (R109, R110). -/
def drawPixel (bit : Bool) (x : Column) (y : Row) (d : Framebuffer × Bool) : Framebuffer × Bool :=
  if bit then (fbFlip d.1 x y, d.2 || fbCell d.1 x y) else d

/-- The columns `cs` of one sprite row, clipped at the right edge (R109). -/
def drawColumns (b : Byte) (x0 : Nat) (y : Row) : List Nat → Framebuffer × Bool → Framebuffer × Bool
  | [], d => d
  | c :: cs, d =>
    if h : x0 + c < 64 then drawColumns b x0 y cs (drawPixel (rowBit b c) ⟨x0 + c, h⟩ y d) else d

/-- The sprite rows from row `yy` of the screen on, clipped at the bottom edge (R109). -/
def drawRows (x0 : Nat) : Nat → List Byte → Framebuffer × Bool → Framebuffer × Bool
  | _, [], d => d
  | yy, b :: sprite, d =>
    if h : yy < 32 then drawRows x0 (yy + 1) sprite (drawColumns b x0 ⟨yy, h⟩ (List.range 8) d) else d

/-- `draw(sprite, vx, vy)` (R109): the new framebuffer, and whether a cell went from set to unset. The starting
coordinates wrap; nothing after them does. -/
def draw (fb : Framebuffer) (sprite : List Byte) (vx vy : Byte) : Framebuffer × Bool :=
  drawRows (vx.toNat % 64) (vy.toNat % 32) sprite (fb, false)

/-- `draw`, then `VF <- c ? 1 : 0` (R114). -/
def State.drawSprite (s : State) (sprite : List Byte) (vx vy : Byte) : State :=
  (s.setFb (draw s.fb sprite vx vy).1).setReg vf (flagByte (draw s.fb sprite vx vy).2)

/-- The copy of the framebuffer that FB_OUT gives: cell (x, y) at index `y * 64 + x` (R112). -/
def screenCopy (fb : Framebuffer) : ScreenCopy :=
  Vector.ofFn fun k : Fin 2048 => fbCell fb ⟨k.val % 64, Nat.mod_lt _ (by decide)⟩ ⟨k.val / 64, by omega⟩

/-- `pixel(x, y)`: the host's point query of a copy (R112). -/
def pixel (screen : ScreenCopy) (x : Column) (y : Row) : Bool := screen[y.val * 64 + x.val]

/-! ## Instructions -/

/-- `00E0`, CLS (R113). -/
def execCls (s : State) : Outcome := .next (s.setFb fbClear)

/-- `Dxyn`, DRW Vx, Vy, n (R114). -/
def execDrw (x y : Reg) (n : Nat) (s : State) : Outcome :=
  s.complete ((s.memRead s.dataAddr n).map fun sprite => s.drawSprite sprite (s.reg x) (s.reg y))

end Sys2Proof.Machine
end

