-- ==== Sys2Proof/Machine/Cycle.lean ====
section
/-! DEFINITION. The phases of a step around the execute phase (40_cycle.md R67 to R76), and placing a word where the
next step fetches. -/

namespace Sys2Proof.Machine

/-- The inputs the next step samples: what the driver presents, or free values (R63 to R65; log 1). -/
def State.nextInput (s : State) : StepInput :=
  match s.inputs with
  | [] =>
    { keys := { mask := Config.freeKeyMask s.draws, last := Config.freeKeyLast s.draws }
      tick := Config.freeTick s.draws
      rnd := Config.freeRnd s.draws }
  | input :: _ => input

/-- The input ports sampled for this step (R63, R66: fresh inputs for each). -/
def State.sampleInputs (s : State) : State :=
  { s with ports := s.nextInput, inputs := s.inputs.tail, draws := s.draws + 1 }

/-- One timer, stepped: it drops by one on a tick and stops at zero (R68). -/
def tickDown (tick : Bool) (t : Byte) : Byte := if t = 0 then 0 else if tick then t - 1 else t

/-- Phase 1, the timers (R68). -/
def State.timerPhase (s : State) : State :=
  (s.setDt (tickDown s.ports.tick s.dt)).setSt (tickDown s.ports.tick s.st)

/-- Phase 2, the fetch: big-endian, or nothing when [PC, PC+2) leaves memory (R69). -/
def State.fetch (s : State) : Option Word :=
  if s.pc.toNat + 2 ≤ memSize then some (wordOfBytes (s.readByte s.pc.toNat) (s.readByte (s.pc.toNat + 1))) else none

/-- Phase 3, the latch and the increment (R70). -/
def State.latchPhase (s : State) : State := (s.setKl s.ports.keys).setPc (s.pc + 2)

/-- The end of a step whose fetch failed (R69, R76; log 7). -/
def State.failFetch (s : State) : State := s.setOut .noMoreInstructions

/-- The end of a step whose opcode is unknown; PC is already the fetch address + 2 (R71, R76; log 7). -/
def State.failDecode (s : State) (op : Word) : State := s.setOut (.unknownInstruction op s.pc)

/-- Whether an instruction makes the step report REDRAW: `00E0` and `Dxyn` (R74). -/
def reportsRedraw : Instr → Bool
  | .cls | .drw _ _ _ => true
  | .nop | .ret | .jp _ | .call _ | .seImm _ _ | .sneImm _ _ | .seReg _ _ | .ldImm _ _ | .addImm _ _
  | .ldReg _ _ | .orReg _ _ | .andReg _ _ | .xorReg _ _ | .addReg _ _ | .sub _ _ | .shr _ _ | .subn _ _
  | .shl _ _ | .sneReg _ _ | .ldI _ | .jpV0 _ | .rnd _ _ | .skp _ | .sknp _ | .ldVxDt _ | .ldVxK _
  | .ldDt _ | .ldSt _ | .addI _ | .ldF _ | .ldB _ | .ldStore _ | .ldLoad _ => false

/-- BEEP: `ST > 0` (R74; 45_keys_timers.md R124). -/
def State.beep (s : State) : Bool := decide (0 < s.st.toNat)

/-- Phase 5, the output, of a step that executed `i`; a step that faulted has its output already (R74, R76). -/
def State.outputPhase (i : Instr) (s : State) : State :=
  match s.status with
  | .running => s.setOut (.ok (if reportsRedraw i then some (screenCopy s.fb) else none) s.beep)
  | .faulted _ => s

/-- The step after its execute phase. -/
def finish (i : Instr) : Outcome → Outcome
  | .next t => .next (t.outputPhase i)
  | .fault reason => .fault reason
  | .refused reason => .refused reason

/-- The state with a word at PC, where the next step fetches, if there is room for one there (log 15). -/
def State.placeWord (s : State) (w : Word) : State :=
  if s.pc.toNat + 2 ≤ memSize then s.setMem (Memory.writeAll s.params s.mem s.pc.toNat (bytesOfWord w)) else s

end Sys2Proof.Machine
end

