-- ==== Sys2Proof/Machine/Alu.lean ====
section
/-! DEFINITION. Register and ALU instructions (42_alu.md). Operands are read in the state the meaning starts in, before
any write (40_cycle.md R72). -/

namespace Sys2Proof.Machine

/-- `6xnn`, LD Vx, nn (R90). -/
def execLdImm (x : Reg) (nn : Byte) (s : State) : Outcome := .next (s.setReg x nn)

/-- `7xnn`, ADD Vx, nn (R91). -/
def execAddImm (x : Reg) (nn : Byte) (s : State) : Outcome := .next (s.setReg x (sumByte (s.reg x) nn))

/-- `8xy0`, LD Vx, Vy (R92). -/
def execLdReg (x y : Reg) (s : State) : Outcome := .next (s.setReg x (s.reg y))

/-- `8xy1`, OR Vx, Vy (R93). -/
def execOrReg (x y : Reg) (s : State) : Outcome := .next (s.setRegThenFlag x (s.reg x ||| s.reg y) 0)

/-- `8xy2`, AND Vx, Vy (R94). -/
def execAndReg (x y : Reg) (s : State) : Outcome := .next (s.setRegThenFlag x (s.reg x &&& s.reg y) 0)

/-- `8xy3`, XOR Vx, Vy (R95). -/
def execXorReg (x y : Reg) (s : State) : Outcome := .next (s.setRegThenFlag x (s.reg x ^^^ s.reg y) 0)

/-- `8xy4`, ADD Vx, Vy (R96). -/
def execAddReg (x y : Reg) (s : State) : Outcome :=
  .next (s.setRegThenFlag x (sumByte (s.reg x) (s.reg y)) (flagByte (carry (s.reg x) (s.reg y))))

/-- `8xy5`, SUB Vx, Vy (R97). -/
def execSub (x y : Reg) (s : State) : Outcome :=
  .next (s.setRegThenFlag x (diffByte (s.reg x) (s.reg y)) (flagByte (notBorrow (s.reg x) (s.reg y))))

/-- `8xy7`, SUBN Vx, Vy (R98). -/
def execSubn (x y : Reg) (s : State) : Outcome :=
  .next (s.setRegThenFlag x (diffByte (s.reg y) (s.reg x)) (flagByte (notBorrow (s.reg y) (s.reg x))))

/-- `8xy6`, SHR Vx, Vy (R99): Vy is shifted, the flag is the old Vx's, and Vx is written last. -/
def execShr (x y : Reg) (s : State) : Outcome :=
  .next (s.setFlagThenReg x (halfByte (s.reg y)) (flagByte (lowBit (s.reg x))))

/-- `8xyE`, SHL Vx, Vy (R100): Vy is shifted, the flag is the old Vx's, and Vx is written last. -/
def execShl (x y : Reg) (s : State) : Outcome :=
  .next (s.setFlagThenReg x (doubleByte (s.reg y)) (flagByte (highBit (s.reg x))))

/-- `Cxnn`, RND Vx, nn (R101), with the RND input of this step (40_cycle.md R65). -/
def execRnd (x : Reg) (nn : Byte) (s : State) : Outcome := .next (s.setReg x (s.ports.rnd &&& nn))

end Sys2Proof.Machine
end

