-- ==== Sys2Proof/Machine/Control.lean ====
section
/-! DEFINITION. Control flow (41_control_flow.md). PC is already the fetch address + 2 when a meaning starts (40_cycle.md
R70). -/

namespace Sys2Proof.Machine

/-- `0000`, NOP (R79). -/
def execNop (s : State) : Outcome := .next s

/-- `00EE`, RET (R80). -/
def execRet (s : State) : Outcome := s.complete (s.pop.map fun popped => popped.2.setPc popped.1)

/-- `1nnn`, JP nnn (R81). -/
def execJp (nnn : Addr12) (s : State) : Outcome := .next (s.setPc (zext16 nnn))

/-- `2nnn`, CALL nnn (R82). -/
def execCall (nnn : Addr12) (s : State) : Outcome := s.complete ((s.push s.pc).map fun t => t.setPc (zext16 nnn))

/-- `3xnn`, SE Vx, nn (R83). -/
def execSeImm (x : Reg) (nn : Byte) (s : State) : Outcome := .next (s.skipIf (s.reg x == nn))

/-- `4xnn`, SNE Vx, nn (R84). -/
def execSneImm (x : Reg) (nn : Byte) (s : State) : Outcome := .next (s.skipIf (s.reg x != nn))

/-- `5xy0`, SE Vx, Vy (R85). -/
def execSeReg (x y : Reg) (s : State) : Outcome := .next (s.skipIf (s.reg x == s.reg y))

/-- `9xy0`, SNE Vx, Vy (R86). -/
def execSneReg (x y : Reg) (s : State) : Outcome := .next (s.skipIf (s.reg x != s.reg y))

/-- `Bnnn`, JP V0, nnn (R87). -/
def execJpV0 (nnn : Addr12) (s : State) : Outcome := .next (s.setPc (sumTarget nnn (s.reg 0)))

end Sys2Proof.Machine
end

