-- ==== Sys2Proof/Machine/Index.lean ====
section
/-! DEFINITION. Index register and memory instructions (43_index_memory.md). -/

namespace Sys2Proof.Machine

/-- `Annn`, LD I, nnn (R102). -/
def execLdI (nnn : Addr12) (s : State) : Outcome := .next (s.setI (zext16 nnn))

/-- `Fx1E`, ADD I, Vx (R103). -/
def execAddI (x : Reg) (s : State) : Outcome := .next (s.setI (indexSum s.i (s.reg x)))

/-- `Fx29`, LD F, Vx (R104). -/
def execLdF (x : Reg) (s : State) : Outcome := .next (s.setI (glyphAddr (s.reg x)))

/-- `Fx33`, LD B, Vx (R105). -/
def execLdB (x : Reg) (s : State) : Outcome := s.complete (s.memWrite s.dataAddr (decimalDigits (s.reg x)))

/-- `Fx55`, LD [I], Vx (R106). -/
def execLdStore (x : Reg) (s : State) : Outcome :=
  s.complete ((s.memWrite s.dataAddr (s.regsUpTo x)).map fun t => t.setI (indexPast s.i x))

/-- `Fx65`, LD Vx, [I] (R107). -/
def execLdLoad (x : Reg) (s : State) : Outcome :=
  s.complete ((s.memRead s.dataAddr (x.val + 1)).map fun bs => (s.loadRegs bs).setI (indexPast s.i x))

end Sys2Proof.Machine
end

