-- ==== Sys2Proof/Machine/KeysTimers.lean ====
section
/-! DEFINITION. Keys, timers and sound (45_keys_timers.md). KL is the latch of this step's KEYS, and DT and ST are what
this step's timer phase left (40_cycle.md R68, R70). -/

namespace Sys2Proof.Machine

/-- `Ex9E`, SKP Vx (R118). -/
def execSkp (x : Reg) (s : State) : Outcome := s.complete ((s.keyHeld (s.reg x)).map fun held => s.skipIf held)

/-- `ExA1`, SKNP Vx (R119). -/
def execSknp (x : Reg) (s : State) : Outcome := s.complete ((s.keyHeld (s.reg x)).map fun held => s.skipIf (!held))

/-- Vx after `Fx0A`: the key pressed, if one was (R120). -/
def keyOr (pressed : Option Key) (old : Byte) : Byte :=
  match pressed with
  | none => old
  | some k => keyByte k

/-- `Fx0A`, LD Vx, K (R120): the key to Vx, or PC back to this instruction. -/
def execLdVxK (x : Reg) (s : State) : Outcome :=
  .next ((s.setReg x (keyOr s.kl.last (s.reg x))).setPc (waitTarget s.kl.last s.pc))

/-- `Fx07`, LD Vx, DT (R121). -/
def execLdVxDt (x : Reg) (s : State) : Outcome := .next (s.setReg x s.dt)

/-- `Fx15`, LD DT, Vx (R122). -/
def execLdDt (x : Reg) (s : State) : Outcome := .next (s.setDt (s.reg x))

/-- `Fx18`, LD ST, Vx (R123). -/
def execLdSt (x : Reg) (s : State) : Outcome := .next (s.setSt (s.reg x))

end Sys2Proof.Machine
end

