-- ==== Sys2Proof/Machine/Execute.lean ====
section
/-! DEFINITION. The part of a step that follows the fetch (40_cycle.md R70, R71, R74). -/

namespace Sys2Proof.Machine

/-- Phases 3 to 5 of a step that fetched `op`, from the state its fetch left. -/
def runOpcode (op : Word) (s : State) : Outcome :=
  match decode op with
  | .error _ => .next (s.latchPhase.failDecode op)
  | .ok i => finish i (exec i s.latchPhase)

end Sys2Proof.Machine
end

