-- ==== Sys2Proof/Machine/Step.lean ====
section
/-! DEFINITION. One step of the block: `step(state, KEYS, TICK, RND)` of 40_cycle.md R75. -/

namespace Sys2Proof.Machine

/-- One step. A Faulted block stops with its reason (R67; log 5). A Running one samples its inputs and runs the phases
in order; a step that fails ends in a next state whose outputs say so (R76; log 7). -/
def step (s : State) : Host.Outcome State Fault Refusal :=
  match s.status with
  | .faulted reason => .fault reason
  | .running =>
    match s.sampleInputs.timerPhase.fetch with
    | none => .next s.sampleInputs.timerPhase.failFetch
    | some op => runOpcode op s.sampleInputs.timerPhase

/-- The state with the instruction word `w` of `nbits` bits, numbered as opcode_table.json numbers them, where `step`
fetches next (log 9, log 15). -/
def State.withFetchWord (s : State) (nbits w : Nat) : State := s.placeWord (BitVec.ofNat 16 (w % 2 ^ nbits))

end Sys2Proof.Machine
end

