-- ==== Sys2Proof/Machine/Boot.lean ====
section
/-! DEFINITION. Construction from a ROM, the block's only reset (70_reset_and_hazards.md R140). -/

namespace Sys2Proof.Machine

/-- The one failure of construction (60_exceptions.md R130): no block exists after it, so it is no outcome of a step. -/
inductive ConstructError where
  /-- The ROM is longer than 3584 bytes. -/
  | romTooBig
  deriving DecidableEq, Repr

/-- MEM of a block built from `rom`: the font, zeros, the ROM at 0x200, zeros (20_memory.md R38). -/
def romMemory (p : Params) (rom : List Byte) : Memory := Memory.writeAll p [] romBase rom

/-- `construct(rom)` (R140), for given parameters. -/
def State.construct (p : Params) (rom : List Byte) : Except ConstructError State :=
  if RomFits rom then .ok { State.reset with params := p, mem := romMemory p rom } else .error .romTooBig

end Sys2Proof.Machine
end

