-- ==== Sys2Proof/Machine/Driver.lean ====
section
/-! DEFINITION. What the driver reads and does outside a step: its operations on a Keys value (45_keys_timers.md R115,
R116), the ports it reads (40_cycle.md R63) and the numeric codes (60_exceptions.md R126, R129). No step calls these
(log 14). -/

namespace Sys2Proof.Machine

/-! ## The driver's Keys value (R115) -/

/-- `press_key(k)`: "sets bit `k`, records `k` as last-pressed". -/
def Keys.press (keys : Keys) (k : Key) : Keys := { mask := keys.mask ||| 1#16 <<< k.val, last := some k }

/-- `release_key(k)`: "clears bit `k` only; does not affect last-pressed". -/
def Keys.release (keys : Keys) (k : Key) : Keys := { keys with mask := keys.mask &&& ~~~(1#16 <<< k.val) }

/-- `key_pressed(k)`: "bit test". -/
def Keys.pressed (keys : Keys) (k : Key) : Bool := keys.mask.getLsbD k.val

/-- `reset_last_pressed()`: "clears the last-pressed slot"; the driver does so once a step (R116). -/
def Keys.resetLast (keys : Keys) : Keys := { keys with last := Option.none }

/-! ## Output ports -/

/-- REDRAW, where a step drives it. -/
def StepOutput.redraw : StepOutput → Option Bool
  | .ok screen _ => some screen.isSome
  | .noMoreInstructions | .unknownInstruction _ _ | .fault _ => none

/-- FB_OUT, where a step drives it. -/
def StepOutput.fbOut : StepOutput → Option ScreenCopy
  | .ok screen _ => screen
  | .noMoreInstructions | .unknownInstruction _ _ | .fault _ => none

/-- BEEP, where a step drives it. -/
def StepOutput.beep : StepOutput → Option Bool
  | .ok _ b => some b
  | .noMoreInstructions | .unknownInstruction _ _ | .fault _ => none

/-- The code of STATUS_OUT (R126; 92_eei_decisions.md D18). -/
def StepOutput.code : StepOutput → Nat
  | .ok _ _ => 0
  | .noMoreInstructions => 1
  | .unknownInstruction _ _ => 2
  | .fault _ => 3

/-- The code of a fault reason (R129; 92_eei_decisions.md D18). -/
def Fault.code : Fault → Nat
  | .stackUnderflow => 1
  | .stackOverflow => 2
  | .memRange => 3
  | .keyRange => 4

end Sys2Proof.Machine
end

