-- ==== Sys2Proof/Safety.lean ====
section
/-! DEFINITION. The terms claims are stated in: the invariant of a Running block, what a state shares with another, and
how a run ends. -/

namespace Sys2Proof.Machine

/-- What every state of a run satisfies: a depth of at least 1 (00_scope.md R11), memory in its canonical form (log 10),
and, while the block is Running, the bounds of 10_state.md R25 and R26 on PC and on the call stack. -/
structure State.Inv (s : State) : Prop where
  params : s.params.WellFormed
  memory : Memory.wf s.params s.mem
  pc : s.status = .running → s.pc.toNat ≤ 0x10FE
  depth : s.status = .running → s.stack.length ≤ s.params.stackDepth
  returns : s.status = .running → ∀ a ∈ s.stack, 2 ≤ a.toNat ∧ a.toNat ≤ 0x1000

/-- The step reported `Ok`. -/
def State.reportsOk (s : State) : Prop := ∃ screen beep, s.out = some (.ok screen beep)

/-- `t` is `s` but for the general registers. -/
def SameButV (s t : State) : Prop := t = s.setV t.v
/-- `t` is `s` but for PC. -/
def SameButPc (s t : State) : Prop := t = s.setPc t.pc
/-- `t` is `s` but for I. -/
def SameButI (s t : State) : Prop := t = s.setI t.i

/-- `t` is `s` but for memory. -/
def SameButMem (s t : State) : Prop := t = s.setMem t.mem

/-- The outcome is the fault `reason` of 60_exceptions.md R129: STATUS and STATUS_OUT record it (log 5). -/
def Raises (o : Outcome) (reason : Fault) : Prop :=
  ∃ t, o = .next t ∧ t.status = .faulted reason ∧ t.out = some (.fault reason)

/-! ## Bits of an opcode, as numbers -/

/-- `op[hi:lo]`, bits `hi` down to `lo` as an unsigned number (00_scope.md R19). -/
def bits (op : Word) (hi lo : Nat) : Nat := op.toNat / 2 ^ lo % 2 ^ (hi + 1 - lo)

/-- Exactly the opcode `w` is the instruction `i`. -/
def EncodedExactly (w : Word) (i : Instr) : Prop := ∀ op, decode op = .ok i ↔ op = w

/-- The opcodes with first nibble `f` are `mk nnn`, with `nnn = op[11:0]`. -/
def EncodedNNN (f : Nat) (mk : Addr12 → Instr) : Prop :=
  ∀ op, bits op 15 12 = f → ∃ nnn, decode op = .ok (mk nnn) ∧ nnn.toNat = bits op 11 0

/-- The opcodes with first nibble `f` are `mk x nn`, with `x = op[11:8]` and `nn = op[7:0]`. -/
def EncodedXNN (f : Nat) (mk : Reg → Byte → Instr) : Prop :=
  ∀ op, bits op 15 12 = f →
    ∃ x nn, decode op = .ok (mk x nn) ∧ x.val = bits op 11 8 ∧ nn.toNat = bits op 7 0

/-- The opcodes with first nibble `f` and last nibble `l` are `mk x y`, with `x = op[11:8]` and `y = op[7:4]`. -/
def EncodedXY (f l : Nat) (mk : Reg → Reg → Instr) : Prop :=
  ∀ op, bits op 15 12 = f → bits op 3 0 = l →
    ∃ x y, decode op = .ok (mk x y) ∧ x.val = bits op 11 8 ∧ y.val = bits op 7 4

/-- The opcodes with first nibble `f` and low byte `l` are `mk x`, with `x = op[11:8]`. -/
def EncodedX (f l : Nat) (mk : Reg → Instr) : Prop :=
  ∀ op, bits op 15 12 = f → bits op 7 0 = l → ∃ x, decode op = .ok (mk x) ∧ x.val = bits op 11 8

/-! ## What a sprite covers -/

/-- Whether a sprite drawn from (vx, vy) has a 1 bit at cell (x, y): the start wraps, the cells after it do not
(44_display.md R108, R109). -/
def spriteCovers (sprite : List Byte) (vx vy : Byte) (x : Column) (y : Row) : Bool :=
  decide (vy.toNat % 32 ≤ y.val) && decide (vx.toNat % 64 ≤ x.val) && decide (x.val < vx.toNat % 64 + 8) &&
    (sprite[y.val - vy.toNat % 32]?).any fun b => b.getLsbD (7 - (x.val - vx.toNat % 64))

/-! ## Runs -/

/-- How a step of a run ended it (70_reset_and_hazards.md R146); ending (d), the driver stopping, is no event of the
block. -/
inductive RunEnd where
  /-- (a) `NoMoreInstructions`, the normal end. -/
  | normal
  /-- (b) `UnknownInstruction`, where the driver chooses to stop. -/
  | unknown (opcode pc : Word)
  /-- (c) `Fault(r)`: no normal end. -/
  | faulted (reason : Fault)
  deriving DecidableEq, Repr

/-- The ending a state reports, if its last step can end a run. -/
def State.runEnd (s : State) : Option RunEnd :=
  match s.out with
  | some .noMoreInstructions => some .normal
  | some (.unknownInstruction opcode pc) => some (.unknown opcode pc)
  | some (.fault reason) => some (.faulted reason)
  | some (.ok _ _) | none => none

/-- A run of `k` steps from `s` is safe when every step of it answers a next state and none of those states is
Faulted: "claims about a run take no fault as a premise" (60_exceptions.md R129). -/
def SafeRun : Nat → State → Prop
  | 0, s => s.status = .running
  | k + 1, s => s.status = .running ∧ ∃ t, step s = .next t ∧ SafeRun k t

end Sys2Proof.Machine
end

