-- ==== Sys2Proof/Certificates/Slice0/Obligations.lean ====
section
/-! DEFINITION. The statements about the model, from the numbered rules of spec/. Results are said with numbers and
with what each component reads as, not with the functions the meanings are written over. "t is s but for …" is the frame
of an instruction: every component not named is unchanged. -/

open Sys2Proof Sys2Proof.Machine

/-! ## Encoding (30_encoding.md) -/

/-- Decoding the encoding of a well-formed instruction gives it back, with every operand at every value. -/
def Obligations.DecodeAfterEncode : Prop :=
  ∀ i : Instr, i.WellFormed → decode (encode i) = .ok i

/-- Every opcode that decodes is the encoding of what it decodes to, which is well-formed. -/
def Obligations.EncodeAfterDecode : Prop :=
  ∀ (op : Word) (i : Instr), decode op = .ok i → encode i = op ∧ i.WellFormed

/-- R56 (derived by the spec from R55): an opcode matches a row when `op & mask = match`; no two rows match one
opcode; what it decodes to is the unique matching row, or unknown when no row matches. -/
def Obligations.DecodeFollowsOpcodeMap : Prop :=
  (∀ q ∈ opcodeMap, ∀ r ∈ opcodeMap, ∀ op, q.covers op = true → r.covers op = true → q = r) ∧
  (∀ op r, r ∈ opcodeMap → (r.covers op = true ↔ op &&& r.mask = r.value)) ∧
  (∀ op r, r ∈ opcodeMap → r.covers op = true → ∃ i, decode op = .ok i ∧ i.row = r) ∧
  (∀ op, (∀ r ∈ opcodeMap, r.covers op = false) → decode op = .error (.unknown op))

/-- The unknown encodings, family by family (30_encoding.md section 4). -/
def Obligations.UnknownEncodings : Prop :=
  ∀ op : Word, decode op = .error (.unknown op) ↔
    (bits op 15 12 = 0x0 ∧ op ≠ 0x0000 ∧ op ≠ 0x00E0 ∧ op ≠ 0x00EE) ∨
    (bits op 15 12 = 0x5 ∧ bits op 3 0 ≠ 0) ∨
    (bits op 15 12 = 0x8 ∧ bits op 3 0 ∈ [0x8, 0x9, 0xA, 0xB, 0xC, 0xD, 0xF]) ∨
    (bits op 15 12 = 0x9 ∧ bits op 3 0 ≠ 0) ∨
    (bits op 15 12 = 0xE ∧ bits op 7 0 ∉ [0x9E, 0xA1]) ∨
    (bits op 15 12 = 0xF ∧ bits op 7 0 ∉ [0x07, 0x0A, 0x15, 0x18, 0x1E, 0x29, 0x33, 0x55, 0x65])

/-- Opcodes of each format, written out from the patterns of 30_encoding.md R55. -/
def Obligations.WrittenOutWordsDecode : Prop :=
  decode 0b0000000011101110 = .ok .ret ∧
  decode 0b0001001101000101 = .ok (.jp 0x345) ∧
  decode 0b0011001101000010 = .ok (.seImm 3 0x42) ∧
  decode 0b1000000100101110 = .ok (.shl 1 2) ∧
  decode 0b1101000100100101 = .ok (.drw 1 2 5) ∧
  decode 0b1110000110011110 = .ok (.skp 1) ∧
  decode 0b1111001001100101 = .ok (.ldLoad 2)

/-! ## The step (40_cycle.md) -/

/-- A step of a Running block whose two bytes at PC, the first the more significant, decode to `i` is the execute
phase of `i` in the state that sampling the inputs and phases 1 and 3 leave, with the output phase after it (R75). -/
def Obligations.StepRunsDecodedInstruction : Prop :=
  ∀ (s : State) (op : Word) (i : Instr), s.status = .running → s.pc.toNat + 2 ≤ 0x1000 →
    op.toNat = (s.readByte s.pc.toNat).toNat * 256 + (s.readByte (s.pc.toNat + 1)).toNat → decode op = .ok i →
    step s = finish i (exec i s.sampleInputs.timerPhase.latchPhase)

/-- What the execute phase finds (R68, R70, and the sampling of log 1): the timers stepped down if TICK and not below
0, KL the KEYS of this step, PC two further, the ports the next inputs, and nothing else changed. -/
def Obligations.PhasesBeforeExecute : Prop :=
  ∀ (s u : State), s.pc.toNat + 2 ≤ 0x1000 → u = s.sampleInputs.timerPhase.latchPhase →
    u.ports = s.nextInput ∧
    u.dt.toNat = s.dt.toNat - (if s.nextInput.tick then 1 else 0) ∧
    u.st.toNat = s.st.toNat - (if s.nextInput.tick then 1 else 0) ∧
    u.kl = s.nextInput.keys ∧ u.pc.toNat = s.pc.toNat + 2 ∧
    u.v = s.v ∧ u.i = s.i ∧ u.stack = s.stack ∧ u.mem = s.mem ∧ u.fb = s.fb ∧ u.status = s.status ∧
    u.params = s.params ∧ u.out = s.out ∧ u.inputs = s.inputs.tail

/-- R69 (a failed step is a next state by log 7): inside memory the fetch reads the two bytes at PC, big-endian; where
the range leaves memory the step fails with NoMoreInstructions: the timer phase stands, and PC, KL and everything else
are unchanged (the ports by log 1). -/
def Obligations.FetchPastMemoryEndsRun : Prop :=
  (∀ s : State, s.pc.toNat + 2 ≤ 0x1000 → ∃ op, s.fetch = some op ∧
    op.toNat = (s.readByte s.pc.toNat).toNat * 256 + (s.readByte (s.pc.toNat + 1)).toNat) ∧
  ∀ s : State, s.status = .running → 0xFFF ≤ s.pc.toNat →
    ∃ t, step s = .next t ∧ t.out = some .noMoreInstructions ∧ t.status = .running ∧
      t.dt.toNat = s.dt.toNat - (if s.nextInput.tick then 1 else 0) ∧
      t.st.toNat = s.st.toNat - (if s.nextInput.tick then 1 else 0) ∧
      t.pc = s.pc ∧ t.kl = s.kl ∧ t.v = s.v ∧ t.i = s.i ∧ t.stack = s.stack ∧ t.mem = s.mem ∧ t.fb = s.fb ∧
      t.params = s.params

/-- R128 (the spec's decisions D16, D17; a next state by log 7): a fetched opcode that matches no row ends the step
with UnknownInstruction, which records the opcode and PC after the increment; the block is still Running, and the
timer tick, the latch and the increment stand (R76). -/
def Obligations.UnknownOpcodeIsReported : Prop :=
  ∀ (s : State) (op : Word), s.status = .running → s.pc.toNat + 2 ≤ 0x1000 →
    op.toNat = (s.readByte s.pc.toNat).toNat * 256 + (s.readByte (s.pc.toNat + 1)).toNat →
    (∀ r ∈ opcodeMap, r.covers op = false) →
    ∃ t, step s = .next t ∧ t.out = some (.unknownInstruction op t.pc) ∧ t.pc.toNat = s.pc.toNat + 2 ∧
      t.status = .running ∧ t.kl = s.nextInput.keys ∧
      t.dt.toNat = s.dt.toNat - (if s.nextInput.tick then 1 else 0) ∧
      t.st.toNat = s.st.toNat - (if s.nextInput.tick then 1 else 0) ∧
      t.v = s.v ∧ t.i = s.i ∧ t.stack = s.stack ∧ t.mem = s.mem ∧ t.fb = s.fb ∧ t.params = s.params

/-- A step that reaches the end of its execute phase reports Ok, with REDRAW exactly for `00E0` and `Dxyn`, FB_OUT then a
copy of FB, row-major, and BEEP = (ST > 0). A step that fails, at its fetch, at its decode or with a fault, has an output
and drives none of the three. (40_cycle.md section 2; the outputs are State.out by log 3, and a failed step is a next
state by log 5 and log 7.) -/
def Obligations.OkStepOutputs : Prop :=
  (∀ (s t : State) (op : Word) (i : Instr), s.status = .running → s.pc.toNat + 2 ≤ 0x1000 →
    op.toNat = (s.readByte s.pc.toNat).toNat * 256 + (s.readByte (s.pc.toNat + 1)).toNat → decode op = .ok i →
    exec i s.sampleInputs.timerPhase.latchPhase = .next t → t.status = .running →
    ∃ screen beep, step s = .next (t.setOut (.ok screen beep)) ∧
      (beep = true ↔ 0 < t.st.toNat) ∧
      (screen.isSome = true ↔ i = .cls ∨ ∃ x y n, i = .drw x y n) ∧
      ∀ c, screen = some c → ∀ (x : Column) (y : Row), pixel c x y = fbCell t.fb x y) ∧
  ∀ s t : State, step s = .next t →
    (0xFFF ≤ s.pc.toNat ∨
      (∃ (op : Word) (why : DecodeReject), s.pc.toNat + 2 ≤ 0x1000 ∧
        op.toNat = (s.readByte s.pc.toNat).toNat * 256 + (s.readByte (s.pc.toNat + 1)).toNat ∧
        decode op = .error why) ∨
      ∃ reason, t.status = .faulted reason) →
    ∃ o, t.out = some o ∧ o.redraw = none ∧ o.fbOut = none ∧ o.beep = none

/-- No step is ever refused, and the only step that stops is that of a Faulted block, with its own reason (log 5; "no
behaviour of the block is treated as refuse"). -/
def Obligations.OnlyAFaultedBlockStops : Prop :=
  ∀ s : State, (∀ reason, step s = .fault reason ↔ s.status = .faulted reason) ∧ ∀ why, step s ≠ .refused why

/-- A step of a Running block that faults reports the fault, and every later step stops with the same reason (log 5).
-/
def Obligations.FaultLastsForEver : Prop :=
  ∀ (s t : State) (reason : Fault), s.status = .running → step s = .next t → t.status = .faulted reason →
    t.out = some (.fault reason) ∧ step t = .fault reason

/-- An instruction word placed where the next step fetches is what that step runs, and what the table's decoder reads
(the host's two questions, log 9). -/
def Obligations.PlacedWordIsRun : Prop :=
  ∀ (s : State) (w : Nat) (i : Instr), Memory.wf s.params s.mem → s.status = .running → s.pc.toNat + 2 ≤ 0x1000 →
    w < 0x10000 → decodeTableWord 16 w = some i →
    step (s.withFetchWord 16 w) = finish i (exec i (s.withFetchWord 16 w).sampleInputs.timerPhase.latchPhase) ∧
    ∀ a, a ≠ s.pc.toNat → a ≠ s.pc.toNat + 1 → (s.withFetchWord 16 w).readByte a = s.readByte a

/-! ## Control flow (41_control_flow.md) -/

/-- R79: `0000` does nothing: after a step that executes it, PC is two further and only the timers, KL and the ports
may have changed besides. -/
def Obligations.NopStepOnlyAdvances : Prop :=
  EncodedExactly 0x0000 .nop ∧ (∀ s, exec .nop s = .next s) ∧
  ∀ s : State, s.status = .running → s.pc.toNat + 2 ≤ 0x1000 →
    s.readByte s.pc.toNat = 0 → s.readByte (s.pc.toNat + 1) = 0 →
    ∃ t, step s = .next t ∧ t.reportsOk ∧ t.pc.toNat = s.pc.toNat + 2 ∧ t.status = .running ∧ t.v = s.v ∧ t.i = s.i ∧
      t.stack = s.stack ∧ t.mem = s.mem ∧ t.fb = s.fb ∧ t.params = s.params ∧
      (s.nextInput.tick = false → t.dt = s.dt ∧ t.st = s.st)

/-- RET (the spec's decision D7): PC becomes the last entry of S, which is removed; an empty S is the fault
StackUnderflow (a fault is a next state by log 5). -/
def Obligations.RetPopsReturnAddress : Prop :=
  EncodedExactly 0x00EE .ret ∧
  (∀ (s : State) (l : List Word) (a : Word), s.stack = l ++ [a] → exec .ret s = .next ((s.setPc a).setStack l)) ∧
  ∀ s : State, s.stack = [] → Raises (exec .ret s) .stackUnderflow

/-- R81: `1nnn` sets PC to nnn, zero-extended, and nothing else. -/
def Obligations.JpSetsPc : Prop :=
  EncodedNNN 0x1 .jp ∧
  ∀ (nnn : Addr12) (s : State), ∃ t, exec (.jp nnn) s = .next t ∧ t.pc.toNat = nnn.toNat ∧ SameButPc s t

/-- CALL (the spec's decision D6): the incremented PC is pushed and PC becomes nnn; with STACK_DEPTH entries on S it
is the fault StackOverflow (a fault is a next state by log 5). -/
def Obligations.CallPushesReturnAddress : Prop :=
  EncodedNNN 0x2 .call ∧
  (∀ (nnn : Addr12) (s : State), s.stack.length < s.params.stackDepth →
    ∃ t, exec (.call nnn) s = .next t ∧ t.pc.toNat = nnn.toNat ∧ t = (s.setPc t.pc).setStack (s.stack ++ [s.pc])) ∧
  ∀ (nnn : Addr12) (s : State), s.stack.length = s.params.stackDepth → Raises (exec (.call nnn) s) .stackOverflow

/-- A subroutine that leaves S as it found it returns to the word after its call, with S as it was before the call. -/
def Obligations.RetUndoesCall : Prop :=
  ∀ (nnn : Addr12) (s t u : State), s.stack.length < s.params.stackDepth → exec (.call nnn) s = .next t →
    u.stack = t.stack → ∃ w, exec .ret u = .next w ∧ w.pc = s.pc ∧ w.stack = s.stack

/-- R83, R84: the immediate skips add 2 to PC exactly when Vx equals, or does not equal, nn; nothing else changes. -/
def Obligations.ImmediateSkips : Prop :=
  EncodedXNN 0x3 .seImm ∧ EncodedXNN 0x4 .sneImm ∧
  ∀ (x : Reg) (nn : Byte) (s : State),
    (∃ t, exec (.seImm x nn) s = .next t ∧ SameButPc s t ∧
      (s.reg x = nn → t.pc = s.pc + 2) ∧ (s.reg x ≠ nn → t.pc = s.pc)) ∧
    ∃ t, exec (.sneImm x nn) s = .next t ∧ SameButPc s t ∧
      (s.reg x ≠ nn → t.pc = s.pc + 2) ∧ (s.reg x = nn → t.pc = s.pc)

/-- R85, R86: the register skips add 2 to PC exactly when Vx equals, or does not equal, Vy; nothing else changes. With
another low nibble their words are unknown. -/
def Obligations.RegisterSkips : Prop :=
  EncodedXY 0x5 0x0 .seReg ∧ EncodedXY 0x9 0x0 .sneReg ∧
  (∀ op, bits op 15 12 = 0x5 ∨ bits op 15 12 = 0x9 → bits op 3 0 ≠ 0x0 → decode op = .error (.unknown op)) ∧
  ∀ (x y : Reg) (s : State),
    (∃ t, exec (.seReg x y) s = .next t ∧ SameButPc s t ∧
      (s.reg x = s.reg y → t.pc = s.pc + 2) ∧ (s.reg x ≠ s.reg y → t.pc = s.pc)) ∧
    ∃ t, exec (.sneReg x y) s = .next t ∧ SameButPc s t ∧
      (s.reg x ≠ s.reg y → t.pc = s.pc + 2) ∧ (s.reg x = s.reg y → t.pc = s.pc)

/-- R87 (the spec's decision D4): `Bnnn` sets PC to the exact sum of nnn and V0, masked to nothing. -/
def Obligations.JpV0AddsV0 : Prop :=
  EncodedNNN 0xB .jpV0 ∧
  ∀ (nnn : Addr12) (s : State), ∃ t, exec (.jpV0 nnn) s = .next t ∧
    t.pc.toNat = nnn.toNat + (s.reg 0).toNat ∧ SameButPc s t

/-! ## Registers and ALU (42_alu.md) -/

/-- R90, R91, R92: nn, the sum modulo 256 of Vx and nn, or Vy goes to Vx; no other register, VF among them, and
nothing else changes. -/
def Obligations.LoadsAndImmediateAdd : Prop :=
  EncodedXNN 0x6 .ldImm ∧ EncodedXNN 0x7 .addImm ∧ EncodedXY 0x8 0x0 .ldReg ∧
  (∀ (x : Reg) (nn : Byte) (s : State),
    (∃ t, exec (.ldImm x nn) s = .next t ∧ t.reg x = nn ∧ (∀ r, r ≠ x → t.reg r = s.reg r) ∧ SameButV s t) ∧
    ∃ t, exec (.addImm x nn) s = .next t ∧ (t.reg x).toNat = ((s.reg x).toNat + nn.toNat) % 256 ∧
      (∀ r, r ≠ x → t.reg r = s.reg r) ∧ SameButV s t) ∧
  ∀ (x y : Reg) (s : State),
    ∃ t, exec (.ldReg x y) s = .next t ∧ t.reg x = s.reg y ∧ (∀ r, r ≠ x → t.reg r = s.reg r) ∧ SameButV s t

/-- R93, R94, R95: OR, AND and XOR of the old Vx and Vy go to Vx, bit by bit, and VF ends at 0, with x = F too;
nothing else changes. -/
def Obligations.LogicClearsFlag : Prop :=
  EncodedXY 0x8 0x1 .orReg ∧ EncodedXY 0x8 0x2 .andReg ∧ EncodedXY 0x8 0x3 .xorReg ∧
  ∀ (x y : Reg) (s : State),
    (∃ t, exec (.orReg x y) s = .next t ∧ t.reg vf = 0 ∧ SameButV s t ∧
      (x ≠ vf → ∀ k, (t.reg x).getLsbD k = ((s.reg x).getLsbD k || (s.reg y).getLsbD k)) ∧
      ∀ r, r ≠ x → r ≠ vf → t.reg r = s.reg r) ∧
    (∃ t, exec (.andReg x y) s = .next t ∧ t.reg vf = 0 ∧ SameButV s t ∧
      (x ≠ vf → ∀ k, (t.reg x).getLsbD k = ((s.reg x).getLsbD k && (s.reg y).getLsbD k)) ∧
      ∀ r, r ≠ x → r ≠ vf → t.reg r = s.reg r) ∧
    ∃ t, exec (.xorReg x y) s = .next t ∧ t.reg vf = 0 ∧ SameButV s t ∧
      (x ≠ vf → ∀ k, (t.reg x).getLsbD k = ((s.reg x).getLsbD k ^^ (s.reg y).getLsbD k)) ∧
      ∀ r, r ≠ x → r ≠ vf → t.reg r = s.reg r

/-- R96: the sum modulo 256 goes to Vx and the carry to VF, which wins when x = F; nothing else changes. -/
def Obligations.AddSetsCarry : Prop :=
  EncodedXY 0x8 0x4 .addReg ∧
  ∀ (x y : Reg) (s : State), ∃ t, exec (.addReg x y) s = .next t ∧ SameButV s t ∧
    (x ≠ vf → (t.reg x).toNat = ((s.reg x).toNat + (s.reg y).toNat) % 256) ∧
    (t.reg vf).toNat = (if (s.reg x).toNat + (s.reg y).toNat > 255 then 1 else 0) ∧
    ∀ r, r ≠ x → r ≠ vf → t.reg r = s.reg r

/-- R97, R98: Vx − Vy, or Vy − Vx, modulo 256 goes to Vx and NOT borrow to VF, which wins when x = F; equal operands
give 1; nothing else changes. -/
def Obligations.SubtractSetsNotBorrow : Prop :=
  EncodedXY 0x8 0x5 .sub ∧ EncodedXY 0x8 0x7 .subn ∧
  ∀ (x y : Reg) (s : State),
    (∃ t, exec (.sub x y) s = .next t ∧ SameButV s t ∧
      (x ≠ vf → (t.reg x).toNat = ((s.reg x).toNat + 256 - (s.reg y).toNat) % 256) ∧
      (t.reg vf).toNat = (if (s.reg x).toNat ≥ (s.reg y).toNat then 1 else 0) ∧
      ∀ r, r ≠ x → r ≠ vf → t.reg r = s.reg r) ∧
    ∃ t, exec (.subn x y) s = .next t ∧ SameButV s t ∧
      (x ≠ vf → (t.reg x).toNat = ((s.reg y).toNat + 256 - (s.reg x).toNat) % 256) ∧
      (t.reg vf).toNat = (if (s.reg y).toNat ≥ (s.reg x).toNat then 1 else 0) ∧
      ∀ r, r ≠ x → r ≠ vf → t.reg r = s.reg r

/-- R99, R100 (the spec's decision D10): Vy shifted by one goes to Vx, and bit 0, or bit 7, of the old Vx goes to VF;
with x = F the shifted value stays; nothing else changes. -/
def Obligations.ShiftsTakeVyAndFlagVx : Prop :=
  EncodedXY 0x8 0x6 .shr ∧ EncodedXY 0x8 0xE .shl ∧
  ∀ (x y : Reg) (s : State),
    (∃ t, exec (.shr x y) s = .next t ∧ SameButV s t ∧ (t.reg x).toNat = (s.reg y).toNat / 2 ∧
      (x ≠ vf → (t.reg vf).toNat = (s.reg x).toNat % 2) ∧ ∀ r, r ≠ x → r ≠ vf → t.reg r = s.reg r) ∧
    ∃ t, exec (.shl x y) s = .next t ∧ SameButV s t ∧ (t.reg x).toNat = 2 * (s.reg y).toNat % 256 ∧
      (x ≠ vf → (t.reg vf).toNat = (s.reg x).toNat / 128) ∧ ∀ r, r ≠ x → r ≠ vf → t.reg r = s.reg r

/-- R101 (the spec's decision D3): the RND input of the step ANDed with nn goes to Vx; nothing else changes. -/
def Obligations.RndMasksRandomByte : Prop :=
  EncodedXNN 0xC .rnd ∧
  ∀ (x : Reg) (nn : Byte) (s : State), ∃ t, exec (.rnd x nn) s = .next t ∧ SameButV s t ∧
    (∀ k, (t.reg x).getLsbD k = (s.ports.rnd.getLsbD k && nn.getLsbD k)) ∧ ∀ r, r ≠ x → t.reg r = s.reg r

/-- R65 (the spec's decision D3): only `Cxnn` reads RND: while no fault is raised, with any other RND every other
instruction does the same and leaves that RND. -/
def Obligations.OnlyRndReadsRandomByte : Prop :=
  ∀ (i : Instr) (s t : State) (b : Byte), s.status = .running → (∀ x nn, i ≠ .rnd x nn) → exec i s = .next t →
    t.status = .running →
    exec i { s with ports := { s.ports with rnd := b } } = .next { t with ports := { t.ports with rnd := b } }

/-! ## Index register and memory (43_index_memory.md, 20_memory.md) -/

/-- R102, R104: nnn, or 5 times Vx, not masked, goes to I; nothing else changes. -/
def Obligations.IndexLoads : Prop :=
  EncodedNNN 0xA .ldI ∧ EncodedX 0xF 0x29 .ldF ∧
  (∀ (nnn : Addr12) (s : State), ∃ t, exec (.ldI nnn) s = .next t ∧ t.i.toNat = nnn.toNat ∧ SameButI s t) ∧
  ∀ (x : Reg) (s : State), ∃ t, exec (.ldF x) s = .next t ∧ t.i.toNat = 5 * (s.reg x).toNat ∧ SameButI s t

/-- ADD I, Vx (the spec's decisions D5, D23): the sum modulo 2^16 of I and Vx goes to I; no register, VF among them,
and nothing else changes. -/
def Obligations.AddIWrapsAtSixteenBits : Prop :=
  EncodedX 0xF 0x1E .addI ∧
  ∀ (x : Reg) (s : State), ∃ t, exec (.addI x) s = .next t ∧
    t.i.toNat = (s.i.toNat + (s.reg x).toNat) % 0x10000 ∧ (∀ r, t.reg r = s.reg r) ∧ SameButI s t

/-- LD B (the spec's decision D8): the hundreds, tens and ones of Vx go to I, I+1, I+2, and nothing else changes;
where the three bytes do not lie inside memory it is the fault MemRange (a fault is a next state by log 5). -/
def Obligations.BcdStoresDigits : Prop :=
  EncodedX 0xF 0x33 .ldB ∧
  (∀ (x : Reg) (s : State), Memory.wf s.params s.mem → s.dataAddr + 3 ≤ 0x1000 →
    ∃ t, exec (.ldB x) s = .next t ∧ SameButMem s t ∧
      (t.readByte s.dataAddr).toNat = (s.reg x).toNat / 100 ∧
      (t.readByte (s.dataAddr + 1)).toNat = (s.reg x).toNat / 10 % 10 ∧
      (t.readByte (s.dataAddr + 2)).toNat = (s.reg x).toNat % 10 ∧
      ∀ a, a < s.dataAddr ∨ s.dataAddr + 3 ≤ a → t.readByte a = s.readByte a) ∧
  ∀ (x : Reg) (s : State), 0x1000 < s.dataAddr + 3 → Raises (exec (.ldB x) s) .memRange

/-- LD [I], Vx (the spec's decision D8): V0 to Vx go to memory from I on, I advances by x + 1, and nothing else
changes; where the bytes do not lie inside memory it is the fault MemRange (a fault is a next state by log 5). -/
def Obligations.StoreWritesRegisters : Prop :=
  EncodedX 0xF 0x55 .ldStore ∧
  (∀ (x : Reg) (s : State), Memory.wf s.params s.mem → s.dataAddr + x.val + 1 ≤ 0x1000 →
    ∃ t, exec (.ldStore x) s = .next t ∧ t = (s.setMem t.mem).setI t.i ∧ t.i.toNat = s.i.toNat + x.val + 1 ∧
      (∀ r : Reg, r.val ≤ x.val → t.readByte (s.dataAddr + r.val) = s.reg r) ∧
      ∀ a, a < s.dataAddr ∨ s.dataAddr + x.val + 1 ≤ a → t.readByte a = s.readByte a) ∧
  ∀ (x : Reg) (s : State), 0x1000 < s.dataAddr + x.val + 1 → Raises (exec (.ldStore x) s) .memRange

/-- LD Vx, [I] (the spec's decision D8): V0 to Vx are loaded from memory at I, I advances by x + 1, and nothing else
changes; where the bytes do not lie inside memory it is the fault MemRange (a fault is a next state by log 5). -/
def Obligations.LoadReadsRegisters : Prop :=
  EncodedX 0xF 0x65 .ldLoad ∧
  (∀ (x : Reg) (s : State), s.dataAddr + x.val + 1 ≤ 0x1000 →
    ∃ t, exec (.ldLoad x) s = .next t ∧ t = (s.setV t.v).setI t.i ∧ t.i.toNat = s.i.toNat + x.val + 1 ∧
      (∀ r : Reg, r.val ≤ x.val → t.reg r = s.readByte (s.dataAddr + r.val)) ∧
      ∀ r : Reg, x.val < r.val → t.reg r = s.reg r) ∧
  ∀ (x : Reg) (s : State), 0x1000 < s.dataAddr + x.val + 1 → Raises (exec (.ldLoad x) s) .memRange

/-- `Fx65` run with the x and the I that `Fx55` ran with, in any state with the memory that left, restores V0 to Vx.
-/
def Obligations.StoreLoadRoundTrip : Prop :=
  ∀ (x : Reg) (s t u : State), Memory.wf s.params s.mem → s.dataAddr + x.val + 1 ≤ 0x1000 →
    exec (.ldStore x) s = .next t → u.mem = t.mem → u.params = t.params → u.i = s.i →
    ∃ w, exec (.ldLoad x) u = .next w ∧ w.i = t.i ∧ ∀ r : Reg, r.val ≤ x.val → w.reg r = s.reg r

/-- R40 (the spec's decision D8): MemRead answers the bytes of a range inside memory, in order, and MemWrite writes
them; either faults MemRange on any other range, before a byte moves. -/
def Obligations.MemoryPrimitives : Prop :=
  ∀ (s : State) (a : Nat),
    (∀ n, a + n ≤ 0x1000 → ∃ bs, s.memRead a n = .ok bs ∧ bs.length = n ∧
      ∀ k, k < n → bs[k]? = some (s.readByte (a + k))) ∧
    (∀ n, 0x1000 < a + n → s.memRead a n = .error .memRange) ∧
    (∀ bs, Memory.wf s.params s.mem → a + bs.length ≤ 0x1000 → ∃ t, s.memWrite a bs = .ok t ∧ SameButMem s t ∧
      Memory.wf t.params t.mem ∧ (∀ k, k < bs.length → some (t.readByte (a + k)) = bs[k]?) ∧
      ∀ c, c < a ∨ a + bs.length ≤ c → t.readByte c = s.readByte c) ∧
    ∀ bs : List Byte, 0x1000 < a + bs.length → s.memWrite a bs = .error .memRange

/-- A fetch sees the bytes the instruction before it stored (the spec's decision D27): after `Fx55` with x ≥ 1 at I,
the word fetched at I is V0 and V1. -/
def Obligations.FetchSeesStore : Prop :=
  ∀ (x : Reg) (s t : State), Memory.wf s.params s.mem → s.dataAddr + x.val + 1 ≤ 0x1000 → 1 ≤ x.val →
    exec (.ldStore x) s = .next t →
    ∃ op, (t.setPc s.i).fetch = some op ∧ op.toNat = (s.reg 0).toNat * 256 + (s.reg 1).toNat

/-! ## Display (44_display.md) -/

/-- R109, R110 (the spec's decisions D11, D24): `draw` XORs the sprite onto the framebuffer: a cell the sprite has a 1
bit at is inverted, every other is unchanged, and the result is true exactly when a set cell was inverted. The start
wraps and the rest is clipped. -/
def Obligations.DrawXorsSprite : Prop :=
  ∀ (fb : Framebuffer) (sprite : List Byte) (vx vy : Byte),
    (∀ (x : Column) (y : Row),
      fbCell (draw fb sprite vx vy).1 x y = (fbCell fb x y ^^ spriteCovers sprite vx vy x y)) ∧
    ((draw fb sprite vx vy).2 = true ↔
      ∃ (x : Column) (y : Row), fbCell fb x y = true ∧ spriteCovers sprite vx vy x y = true)

/-- Drawing a sprite twice at one place restores the framebuffer, and the second draw collides if some cell the sprite has
a 1 bit at was unset before the first (log 13: a corner case of R114 read by R109 and R110, DEDUCED). -/
def Obligations.DrawTwiceRestores : Prop :=
  ∀ (fb : Framebuffer) (sprite : List Byte) (vx vy : Byte),
    (draw (draw fb sprite vx vy).1 sprite vx vy).1 = fb ∧
    ((∃ (x : Column) (y : Row), fbCell fb x y = false ∧ spriteCovers sprite vx vy x y = true) →
      (draw (draw fb sprite vx vy).1 sprite vx vy).2 = true)

/-- R111, R113: `00E0` makes every cell unset and changes nothing else, and its step reports a redraw, with every cell
of FB_OUT unset. -/
def Obligations.ClsClearsScreen : Prop :=
  EncodedExactly 0x00E0 .cls ∧
  (∀ s : State, ∃ t, exec .cls s = .next t ∧ t = s.setFb t.fb ∧
    ∀ (x : Column) (y : Row), fbCell t.fb x y = false) ∧
  ∀ s : State, s.status = .running → s.pc.toNat + 2 ≤ 0x1000 →
    s.readByte s.pc.toNat = 0x00 → s.readByte (s.pc.toNat + 1) = 0xE0 →
    ∃ t screen beep, step s = .next t ∧ t.out = some (.ok (some screen) beep) ∧
      ∀ (x : Column) (y : Row), pixel screen x y = false

/-- DRW (the spec's decisions D8, D24): the n bytes at I are drawn at (Vx, Vy) and VF is the collision, 1 or 0;
nothing else changes, I and memory among it; where the bytes do not lie inside memory it is the fault MemRange (a
fault is a next state by log 5). -/
def Obligations.DrwDrawsMemory : Prop :=
  (∀ op, bits op 15 12 = 0xD → ∃ x y n, decode op = .ok (.drw x y n) ∧
    x.val = bits op 11 8 ∧ y.val = bits op 7 4 ∧ n = bits op 3 0) ∧
  (∀ x y n, reportsRedraw (.drw x y n) = true) ∧
  (∀ (x y : Reg) (n : Nat) (s : State), s.dataAddr + n ≤ 0x1000 →
    ∃ t sprite, exec (.drw x y n) s = .next t ∧ t = (s.setFb t.fb).setV t.v ∧
      sprite.length = n ∧ (∀ k, k < n → sprite[k]? = some (s.readByte (s.dataAddr + k))) ∧
      (∀ (c : Column) (r : Row), fbCell t.fb c r = (fbCell s.fb c r ^^ spriteCovers sprite (s.reg x) (s.reg y) c r)) ∧
      (t.reg vf = 1 ∨ t.reg vf = 0) ∧
      (t.reg vf = 1 ↔ ∃ (c : Column) (r : Row), fbCell s.fb c r = true ∧ fbCell t.fb c r = false) ∧
      ∀ r, r ≠ vf → t.reg r = s.reg r) ∧
  ∀ (x y : Reg) (n : Nat) (s : State), 0x1000 < s.dataAddr + n → Raises (exec (.drw x y n) s) .memRange

/-! ## Keys, timers and sound (45_keys_timers.md) -/

/-- SKP, SKNP (the spec's decision D9): PC advances by 2 exactly when the latched mask says key Vx is, or is not,
held, and nothing else changes; a Vx above 0xF is the fault KeyRange (a fault is a next state by log 5). -/
def Obligations.KeySkips : Prop :=
  EncodedX 0xE 0x9E .skp ∧ EncodedX 0xE 0xA1 .sknp ∧
  (∀ (x : Reg) (s : State), (s.reg x).toNat ≤ 0xF →
    (∃ t, exec (.skp x) s = .next t ∧ SameButPc s t ∧
      t.pc = if s.kl.mask.toNat / 2 ^ (s.reg x).toNat % 2 = 1 then s.pc + 2 else s.pc) ∧
    ∃ t, exec (.sknp x) s = .next t ∧ SameButPc s t ∧
      t.pc = if s.kl.mask.toNat / 2 ^ (s.reg x).toNat % 2 = 0 then s.pc + 2 else s.pc) ∧
  ∀ (x : Reg) (s : State), 0xF < (s.reg x).toNat →
    Raises (exec (.skp x) s) .keyRange ∧ Raises (exec (.sknp x) s) .keyRange

/-- R120 (the spec's decision D30): with a last-pressed key, `Fx0A` puts its number in Vx; without one it puts PC back
by 2; nothing else changes, and the mask is not looked at. -/
def Obligations.WaitKeyTakesLastPressed : Prop :=
  EncodedX 0xF 0x0A .ldVxK ∧
  (∀ (x : Reg) (s : State) (k : Key), s.kl.last = some k →
    ∃ t, exec (.ldVxK x) s = .next t ∧ SameButV s t ∧ (t.reg x).toNat = k.val ∧ ∀ r, r ≠ x → t.reg r = s.reg r) ∧
  ∀ (x : Reg) (s : State), s.kl.last = none →
    ∃ t, exec (.ldVxK x) s = .next t ∧ SameButPc s t ∧ t.pc = s.pc - 2

/-- A step that executes `Fx0A` with no key in its KEYS ends with PC where it was, so that the next step fetches the
same instruction. -/
def Obligations.WaitingStepKeepsPc : Prop :=
  ∀ (s : State) (op : Word) (x : Reg), s.status = .running → s.pc.toNat + 2 ≤ 0x1000 →
    op.toNat = (s.readByte s.pc.toNat).toNat * 256 + (s.readByte (s.pc.toNat + 1)).toNat →
    decode op = .ok (.ldVxK x) → s.nextInput.keys.last = none →
    ∃ t, step s = .next t ∧ t.reportsOk ∧ t.pc = s.pc ∧ t.v = s.v ∧ t.mem = s.mem ∧ t.fb = s.fb ∧ t.stack = s.stack ∧
      t.status = .running

/-- R121, R122, R123: DT goes to Vx, or Vx to DT, or Vx to ST; nothing else changes. In a whole step the timer phase
comes first: `Fx07` reads DT after this step's tick, and what `Fx15` and `Fx18` set is not ticked, and `Fx18` sets
this BEEP. -/
def Obligations.TimerMoves : Prop :=
  EncodedX 0xF 0x07 .ldVxDt ∧ EncodedX 0xF 0x15 .ldDt ∧ EncodedX 0xF 0x18 .ldSt ∧
  ∀ (x : Reg) (s : State),
    (∃ t, exec (.ldVxDt x) s = .next t ∧ t.reg x = s.dt ∧ (∀ r, r ≠ x → t.reg r = s.reg r) ∧ SameButV s t) ∧
    (∃ t, exec (.ldDt x) s = .next t ∧ t.dt = s.reg x ∧ t = s.setDt t.dt) ∧
    (∃ t, exec (.ldSt x) s = .next t ∧ t.st = s.reg x ∧ t = s.setSt t.st) ∧
    ∀ op : Word, s.status = .running → s.pc.toNat + 2 ≤ 0x1000 →
      op.toNat = (s.readByte s.pc.toNat).toNat * 256 + (s.readByte (s.pc.toNat + 1)).toNat →
      (decode op = .ok (.ldVxDt x) →
        ∃ t, step s = .next t ∧ (t.reg x).toNat = s.dt.toNat - (if s.nextInput.tick then 1 else 0)) ∧
      (decode op = .ok (.ldDt x) → ∃ t, step s = .next t ∧ t.dt = s.reg x) ∧
      (decode op = .ok (.ldSt x) → ∃ t beep, step s = .next t ∧ t.st = s.reg x ∧ t.out = some (.ok none beep) ∧
        (beep = true ↔ 0 < (s.reg x).toNat))

/-! ## The whole machine (10_state.md, 60_exceptions.md) -/

/-- Which instruction can raise which fault, and that every other cannot (60_exceptions.md section 2). -/
def Obligations.EachInstructionsOneFault : Prop :=
  ∀ (i : Instr) (s t : State) (reason : Fault), s.status = .running → exec i s = .next t → t.status = .faulted reason →
    (reason = .stackUnderflow ∧ i = .ret) ∨
    (reason = .stackOverflow ∧ ∃ nnn, i = .call nnn) ∨
    (reason = .memRange ∧ ((∃ x y n, i = .drw x y n) ∨ ∃ x, i = .ldB x ∨ i = .ldStore x ∨ i = .ldLoad x)) ∨
    (reason = .keyRange ∧ ∃ x, i = .skp x ∨ i = .sknp x)

/-- While no fault is raised, memory changes only in `Fx33` and `Fx55`, the framebuffer only in `00E0` and `Dxyn`, and
the call stack only in `2nnn` and `00EE` (20_memory.md section 3; 10_state.md sections 5, 8). -/
def Obligations.WritersOfMemoryScreenAndStack : Prop :=
  ∀ (i : Instr) (s t : State), s.status = .running → exec i s = .next t → t.status = .running →
    (t.mem ≠ s.mem → ∃ x, i = .ldB x ∨ i = .ldStore x) ∧
    (t.fb ≠ s.fb → i = .cls ∨ ∃ x y n, i = .drw x y n) ∧
    (t.stack ≠ s.stack → i = .ret ∨ ∃ nnn, i = .call nnn)

/-- While no fault is raised, VF changes only in the nine instructions that write it as a flag and in those that name
it as their destination (10_state.md section 2). -/
def Obligations.WritersOfFlag : Prop :=
  ∀ (i : Instr) (s t : State), s.status = .running → exec i s = .next t → t.status = .running →
    t.reg vf ≠ s.reg vf →
      (∃ x y, i = .orReg x y ∨ i = .andReg x y ∨ i = .xorReg x y ∨ i = .addReg x y ∨ i = .sub x y ∨ i = .subn x y ∨
        i = .shr x y ∨ i = .shl x y ∨ ∃ n, i = .drw x y n) ∨
      (∃ nn, i = .ldImm vf nn ∨ i = .addImm vf nn ∨ i = .rnd vf nn) ∨ (∃ y, i = .ldReg vf y) ∨
      i = .ldVxDt vf ∨ i = .ldVxK vf ∨ i = .ldLoad vf

/-- While no fault is raised, I changes only in five instructions, DT only in `Fx15`, ST only in `Fx18`, and the
latch, STATUS and the parameters in none (10_state.md sections 3, 6, 9, 10). -/
def Obligations.WritersOfIndexAndTimers : Prop :=
  ∀ (i : Instr) (s t : State), s.status = .running → exec i s = .next t → t.status = .running →
    (t.i ≠ s.i → (∃ nnn, i = .ldI nnn) ∨ ∃ x, i = .addI x ∨ i = .ldF x ∨ i = .ldStore x ∨ i = .ldLoad x) ∧
    (t.dt ≠ s.dt → ∃ x, i = .ldDt x) ∧ (t.st ≠ s.st → ∃ x, i = .ldSt x) ∧
    t.kl = s.kl ∧ t.params = s.params

/-- The latch is read only by `Ex9E`, `ExA1` and `Fx0A`: with another latch, every other instruction does the same
(10_state.md section 9). -/
def Obligations.ReadersOfKeyLatch : Prop :=
  ∀ (i : Instr) (s t : State) (k : Keys), s.status = .running →
    (∀ x, i ≠ .skp x ∧ i ≠ .sknp x ∧ i ≠ .ldVxK x) → exec i s = .next t → t.status = .running →
    exec i (s.setKl k) = .next (t.setKl k)

/-- "No instruction reads" ST: with another ST, every instruction but `Fx18` does the same and leaves that ST, and
`Fx18` does the very same (10_state.md section 6). -/
def Obligations.NoInstructionReadsSoundTimer : Prop :=
  ∀ (i : Instr) (s t : State) (b : Byte), s.status = .running → exec i s = .next t → t.status = .running →
    ((∀ x, i ≠ .ldSt x) → exec i (s.setSt b) = .next (t.setSt b)) ∧
    ((∃ x, i = .ldSt x) → exec i (s.setSt b) = .next t)

/-! ## Reset and the invariant (70_reset_and_hazards.md) -/

/-- R140, with the memory of R38 (the spec's decisions D12 to D15): construction from a ROM of at most 3584 bytes
gives the block with the values listed there, and a longer ROM gives RomTooBig. -/
def Obligations.ConstructFromRom : Prop :=
  ∀ (p : Params) (rom : List Byte),
    (rom.length ≤ 3584 → ∃ s, State.construct p rom = .ok s ∧ s.params = p ∧
      (∀ a, a < 0x1000 → s.readByte a =
        if h : a < 0x50 then (p.font[a / 5]'(by omega))[a % 5]'(by omega)
        else if 0x200 ≤ a then (rom[a - 0x200]?).getD 0 else 0) ∧
      (∀ r, s.reg r = 0) ∧ s.i = 0 ∧ s.pc = 0x200 ∧ s.stack = [] ∧ s.dt = 0 ∧ s.st = 0 ∧
      (∀ (x : Column) (y : Row), fbCell s.fb x y = false) ∧ s.kl.mask = 0 ∧ s.kl.last = none ∧ s.status = .running) ∧
    (3584 < rom.length → State.construct p rom = .error .romTooBig)

/-- The reset state of the model is the block constructed from the empty ROM with the default parameters (the model's
choice, log 4 and log 9). -/
def Obligations.ResetIsEmptyConstruction : Prop :=
  State.construct Params.default [] = .ok State.reset

/-- Every step keeps the invariant of a Running block: memory canonical, PC at most 0x10FE, at most STACK_DEPTH return
addresses, each of 2 to 0x1000 (10_state.md R25, R26). -/
def Obligations.StepKeepsInvariant : Prop :=
  ∀ s t : State, s.Inv → step s = .next t → t.Inv

/-- The reset state, and every block constructed with a depth of at least 1, meets the invariant. -/
def Obligations.ConstructionMeetsInvariant : Prop :=
  State.reset.Inv ∧ ∀ (p : Params) (rom : List Byte) (s : State), p.WellFormed → State.construct p rom = .ok s → s.Inv

/-- R25 (derived by the spec): PC never wraps around: in a Running state that meets the invariant, a fetch finds PC at
most 0xFFE, the increment and a skip after it are exact, and the roll-back of `Fx0A` does not go below 0. -/
def Obligations.PcNeverWraps : Prop :=
  ∀ (s : State) (i : Instr) (op : Word), s.Inv → s.status = .running → s.sampleInputs.timerPhase.fetch = some op →
    decode op = .ok i → ∀ u t, u = s.sampleInputs.timerPhase.latchPhase → exec i u = .next t → t.status = .running →
    s.pc.toNat ≤ 0xFFE ∧ u.pc.toNat = s.pc.toNat + 2 ∧ u.pc.toNat ≤ 0x1000 ∧ t.pc.toNat ≤ 0x10FE ∧
      (t.pc = u.pc + 2 → t.pc.toNat = u.pc.toNat + 2) ∧ (t.pc = u.pc - 2 → t.pc.toNat = u.pc.toNat - 2)
end

