-- ==== Sys2Proof/Laws/State.lean ====
section
/-! SUPPORT. One lemma for each field and each update of State, and the laws of the register accessors, so that no later
proof unfolds a record update. -/

namespace Sys2Proof.Machine

variable (s : State)

/-! ### setV -/

@[simp] theorem State.setV_v (v : Vector Byte 16) : (s.setV v).v = v := rfl
@[simp] theorem State.setV_i (v : Vector Byte 16) : (s.setV v).i = s.i := rfl
@[simp] theorem State.setV_pc (v : Vector Byte 16) : (s.setV v).pc = s.pc := rfl
@[simp] theorem State.setV_stack (v : Vector Byte 16) : (s.setV v).stack = s.stack := rfl
@[simp] theorem State.setV_dt (v : Vector Byte 16) : (s.setV v).dt = s.dt := rfl
@[simp] theorem State.setV_st (v : Vector Byte 16) : (s.setV v).st = s.st := rfl
@[simp] theorem State.setV_mem (v : Vector Byte 16) : (s.setV v).mem = s.mem := rfl
@[simp] theorem State.setV_fb (v : Vector Byte 16) : (s.setV v).fb = s.fb := rfl
@[simp] theorem State.setV_kl (v : Vector Byte 16) : (s.setV v).kl = s.kl := rfl
@[simp] theorem State.setV_status (v : Vector Byte 16) : (s.setV v).status = s.status := rfl
@[simp] theorem State.setV_params (v : Vector Byte 16) : (s.setV v).params = s.params := rfl
@[simp] theorem State.setV_inputs (v : Vector Byte 16) : (s.setV v).inputs = s.inputs := rfl
@[simp] theorem State.setV_ports (v : Vector Byte 16) : (s.setV v).ports = s.ports := rfl
@[simp] theorem State.setV_draws (v : Vector Byte 16) : (s.setV v).draws = s.draws := rfl
@[simp] theorem State.setV_out (v : Vector Byte 16) : (s.setV v).out = s.out := rfl
@[simp] theorem State.setV_readByte (v : Vector Byte 16) (n : Nat) : (s.setV v).readByte n = s.readByte n := rfl

/-! ### setI -/

@[simp] theorem State.setI_v (a : Word) : (s.setI a).v = s.v := rfl
@[simp] theorem State.setI_i (a : Word) : (s.setI a).i = a := rfl
@[simp] theorem State.setI_pc (a : Word) : (s.setI a).pc = s.pc := rfl
@[simp] theorem State.setI_stack (a : Word) : (s.setI a).stack = s.stack := rfl
@[simp] theorem State.setI_dt (a : Word) : (s.setI a).dt = s.dt := rfl
@[simp] theorem State.setI_st (a : Word) : (s.setI a).st = s.st := rfl
@[simp] theorem State.setI_mem (a : Word) : (s.setI a).mem = s.mem := rfl
@[simp] theorem State.setI_fb (a : Word) : (s.setI a).fb = s.fb := rfl
@[simp] theorem State.setI_kl (a : Word) : (s.setI a).kl = s.kl := rfl
@[simp] theorem State.setI_status (a : Word) : (s.setI a).status = s.status := rfl
@[simp] theorem State.setI_params (a : Word) : (s.setI a).params = s.params := rfl
@[simp] theorem State.setI_inputs (a : Word) : (s.setI a).inputs = s.inputs := rfl
@[simp] theorem State.setI_ports (a : Word) : (s.setI a).ports = s.ports := rfl
@[simp] theorem State.setI_draws (a : Word) : (s.setI a).draws = s.draws := rfl
@[simp] theorem State.setI_out (a : Word) : (s.setI a).out = s.out := rfl
@[simp] theorem State.setI_reg (a : Word) (r : Reg) : (s.setI a).reg r = s.reg r := rfl
@[simp] theorem State.setI_readByte (a : Word) (n : Nat) : (s.setI a).readByte n = s.readByte n := rfl

/-! ### setPc -/

@[simp] theorem State.setPc_v (a : Word) : (s.setPc a).v = s.v := rfl
@[simp] theorem State.setPc_i (a : Word) : (s.setPc a).i = s.i := rfl
@[simp] theorem State.setPc_pc (a : Word) : (s.setPc a).pc = a := rfl
@[simp] theorem State.setPc_stack (a : Word) : (s.setPc a).stack = s.stack := rfl
@[simp] theorem State.setPc_dt (a : Word) : (s.setPc a).dt = s.dt := rfl
@[simp] theorem State.setPc_st (a : Word) : (s.setPc a).st = s.st := rfl
@[simp] theorem State.setPc_mem (a : Word) : (s.setPc a).mem = s.mem := rfl
@[simp] theorem State.setPc_fb (a : Word) : (s.setPc a).fb = s.fb := rfl
@[simp] theorem State.setPc_kl (a : Word) : (s.setPc a).kl = s.kl := rfl
@[simp] theorem State.setPc_status (a : Word) : (s.setPc a).status = s.status := rfl
@[simp] theorem State.setPc_params (a : Word) : (s.setPc a).params = s.params := rfl
@[simp] theorem State.setPc_inputs (a : Word) : (s.setPc a).inputs = s.inputs := rfl
@[simp] theorem State.setPc_ports (a : Word) : (s.setPc a).ports = s.ports := rfl
@[simp] theorem State.setPc_draws (a : Word) : (s.setPc a).draws = s.draws := rfl
@[simp] theorem State.setPc_out (a : Word) : (s.setPc a).out = s.out := rfl
@[simp] theorem State.setPc_reg (a : Word) (r : Reg) : (s.setPc a).reg r = s.reg r := rfl
@[simp] theorem State.setPc_readByte (a : Word) (n : Nat) : (s.setPc a).readByte n = s.readByte n := rfl

/-! ### setStack -/

@[simp] theorem State.setStack_v (l : List Word) : (s.setStack l).v = s.v := rfl
@[simp] theorem State.setStack_i (l : List Word) : (s.setStack l).i = s.i := rfl
@[simp] theorem State.setStack_pc (l : List Word) : (s.setStack l).pc = s.pc := rfl
@[simp] theorem State.setStack_stack (l : List Word) : (s.setStack l).stack = l := rfl
@[simp] theorem State.setStack_dt (l : List Word) : (s.setStack l).dt = s.dt := rfl
@[simp] theorem State.setStack_st (l : List Word) : (s.setStack l).st = s.st := rfl
@[simp] theorem State.setStack_mem (l : List Word) : (s.setStack l).mem = s.mem := rfl
@[simp] theorem State.setStack_fb (l : List Word) : (s.setStack l).fb = s.fb := rfl
@[simp] theorem State.setStack_kl (l : List Word) : (s.setStack l).kl = s.kl := rfl
@[simp] theorem State.setStack_status (l : List Word) : (s.setStack l).status = s.status := rfl
@[simp] theorem State.setStack_params (l : List Word) : (s.setStack l).params = s.params := rfl
@[simp] theorem State.setStack_inputs (l : List Word) : (s.setStack l).inputs = s.inputs := rfl
@[simp] theorem State.setStack_ports (l : List Word) : (s.setStack l).ports = s.ports := rfl
@[simp] theorem State.setStack_draws (l : List Word) : (s.setStack l).draws = s.draws := rfl
@[simp] theorem State.setStack_out (l : List Word) : (s.setStack l).out = s.out := rfl
@[simp] theorem State.setStack_reg (l : List Word) (r : Reg) : (s.setStack l).reg r = s.reg r := rfl
@[simp] theorem State.setStack_readByte (l : List Word) (n : Nat) : (s.setStack l).readByte n = s.readByte n := rfl

/-! ### setDt -/

@[simp] theorem State.setDt_v (b : Byte) : (s.setDt b).v = s.v := rfl
@[simp] theorem State.setDt_i (b : Byte) : (s.setDt b).i = s.i := rfl
@[simp] theorem State.setDt_pc (b : Byte) : (s.setDt b).pc = s.pc := rfl
@[simp] theorem State.setDt_stack (b : Byte) : (s.setDt b).stack = s.stack := rfl
@[simp] theorem State.setDt_dt (b : Byte) : (s.setDt b).dt = b := rfl
@[simp] theorem State.setDt_st (b : Byte) : (s.setDt b).st = s.st := rfl
@[simp] theorem State.setDt_mem (b : Byte) : (s.setDt b).mem = s.mem := rfl
@[simp] theorem State.setDt_fb (b : Byte) : (s.setDt b).fb = s.fb := rfl
@[simp] theorem State.setDt_kl (b : Byte) : (s.setDt b).kl = s.kl := rfl
@[simp] theorem State.setDt_status (b : Byte) : (s.setDt b).status = s.status := rfl
@[simp] theorem State.setDt_params (b : Byte) : (s.setDt b).params = s.params := rfl
@[simp] theorem State.setDt_inputs (b : Byte) : (s.setDt b).inputs = s.inputs := rfl
@[simp] theorem State.setDt_ports (b : Byte) : (s.setDt b).ports = s.ports := rfl
@[simp] theorem State.setDt_draws (b : Byte) : (s.setDt b).draws = s.draws := rfl
@[simp] theorem State.setDt_out (b : Byte) : (s.setDt b).out = s.out := rfl
@[simp] theorem State.setDt_reg (b : Byte) (r : Reg) : (s.setDt b).reg r = s.reg r := rfl
@[simp] theorem State.setDt_readByte (b : Byte) (n : Nat) : (s.setDt b).readByte n = s.readByte n := rfl

/-! ### setSt -/

@[simp] theorem State.setSt_v (b : Byte) : (s.setSt b).v = s.v := rfl
@[simp] theorem State.setSt_i (b : Byte) : (s.setSt b).i = s.i := rfl
@[simp] theorem State.setSt_pc (b : Byte) : (s.setSt b).pc = s.pc := rfl
@[simp] theorem State.setSt_stack (b : Byte) : (s.setSt b).stack = s.stack := rfl
@[simp] theorem State.setSt_dt (b : Byte) : (s.setSt b).dt = s.dt := rfl
@[simp] theorem State.setSt_st (b : Byte) : (s.setSt b).st = b := rfl
@[simp] theorem State.setSt_mem (b : Byte) : (s.setSt b).mem = s.mem := rfl
@[simp] theorem State.setSt_fb (b : Byte) : (s.setSt b).fb = s.fb := rfl
@[simp] theorem State.setSt_kl (b : Byte) : (s.setSt b).kl = s.kl := rfl
@[simp] theorem State.setSt_status (b : Byte) : (s.setSt b).status = s.status := rfl
@[simp] theorem State.setSt_params (b : Byte) : (s.setSt b).params = s.params := rfl
@[simp] theorem State.setSt_inputs (b : Byte) : (s.setSt b).inputs = s.inputs := rfl
@[simp] theorem State.setSt_ports (b : Byte) : (s.setSt b).ports = s.ports := rfl
@[simp] theorem State.setSt_draws (b : Byte) : (s.setSt b).draws = s.draws := rfl
@[simp] theorem State.setSt_out (b : Byte) : (s.setSt b).out = s.out := rfl
@[simp] theorem State.setSt_reg (b : Byte) (r : Reg) : (s.setSt b).reg r = s.reg r := rfl
@[simp] theorem State.setSt_readByte (b : Byte) (n : Nat) : (s.setSt b).readByte n = s.readByte n := rfl

/-! ### setMem -/

@[simp] theorem State.setMem_v (m : Memory) : (s.setMem m).v = s.v := rfl
@[simp] theorem State.setMem_i (m : Memory) : (s.setMem m).i = s.i := rfl
@[simp] theorem State.setMem_pc (m : Memory) : (s.setMem m).pc = s.pc := rfl
@[simp] theorem State.setMem_stack (m : Memory) : (s.setMem m).stack = s.stack := rfl
@[simp] theorem State.setMem_dt (m : Memory) : (s.setMem m).dt = s.dt := rfl
@[simp] theorem State.setMem_st (m : Memory) : (s.setMem m).st = s.st := rfl
@[simp] theorem State.setMem_mem (m : Memory) : (s.setMem m).mem = m := rfl
@[simp] theorem State.setMem_fb (m : Memory) : (s.setMem m).fb = s.fb := rfl
@[simp] theorem State.setMem_kl (m : Memory) : (s.setMem m).kl = s.kl := rfl
@[simp] theorem State.setMem_status (m : Memory) : (s.setMem m).status = s.status := rfl
@[simp] theorem State.setMem_params (m : Memory) : (s.setMem m).params = s.params := rfl
@[simp] theorem State.setMem_inputs (m : Memory) : (s.setMem m).inputs = s.inputs := rfl
@[simp] theorem State.setMem_ports (m : Memory) : (s.setMem m).ports = s.ports := rfl
@[simp] theorem State.setMem_draws (m : Memory) : (s.setMem m).draws = s.draws := rfl
@[simp] theorem State.setMem_out (m : Memory) : (s.setMem m).out = s.out := rfl
@[simp] theorem State.setMem_reg (m : Memory) (r : Reg) : (s.setMem m).reg r = s.reg r := rfl

/-! ### setFb -/

@[simp] theorem State.setFb_v (f : Framebuffer) : (s.setFb f).v = s.v := rfl
@[simp] theorem State.setFb_i (f : Framebuffer) : (s.setFb f).i = s.i := rfl
@[simp] theorem State.setFb_pc (f : Framebuffer) : (s.setFb f).pc = s.pc := rfl
@[simp] theorem State.setFb_stack (f : Framebuffer) : (s.setFb f).stack = s.stack := rfl
@[simp] theorem State.setFb_dt (f : Framebuffer) : (s.setFb f).dt = s.dt := rfl
@[simp] theorem State.setFb_st (f : Framebuffer) : (s.setFb f).st = s.st := rfl
@[simp] theorem State.setFb_mem (f : Framebuffer) : (s.setFb f).mem = s.mem := rfl
@[simp] theorem State.setFb_fb (f : Framebuffer) : (s.setFb f).fb = f := rfl
@[simp] theorem State.setFb_kl (f : Framebuffer) : (s.setFb f).kl = s.kl := rfl
@[simp] theorem State.setFb_status (f : Framebuffer) : (s.setFb f).status = s.status := rfl
@[simp] theorem State.setFb_params (f : Framebuffer) : (s.setFb f).params = s.params := rfl
@[simp] theorem State.setFb_inputs (f : Framebuffer) : (s.setFb f).inputs = s.inputs := rfl
@[simp] theorem State.setFb_ports (f : Framebuffer) : (s.setFb f).ports = s.ports := rfl
@[simp] theorem State.setFb_draws (f : Framebuffer) : (s.setFb f).draws = s.draws := rfl
@[simp] theorem State.setFb_out (f : Framebuffer) : (s.setFb f).out = s.out := rfl
@[simp] theorem State.setFb_reg (f : Framebuffer) (r : Reg) : (s.setFb f).reg r = s.reg r := rfl
@[simp] theorem State.setFb_readByte (f : Framebuffer) (n : Nat) : (s.setFb f).readByte n = s.readByte n := rfl

/-! ### setKl -/

@[simp] theorem State.setKl_v (k : Keys) : (s.setKl k).v = s.v := rfl
@[simp] theorem State.setKl_i (k : Keys) : (s.setKl k).i = s.i := rfl
@[simp] theorem State.setKl_pc (k : Keys) : (s.setKl k).pc = s.pc := rfl
@[simp] theorem State.setKl_stack (k : Keys) : (s.setKl k).stack = s.stack := rfl
@[simp] theorem State.setKl_dt (k : Keys) : (s.setKl k).dt = s.dt := rfl
@[simp] theorem State.setKl_st (k : Keys) : (s.setKl k).st = s.st := rfl
@[simp] theorem State.setKl_mem (k : Keys) : (s.setKl k).mem = s.mem := rfl
@[simp] theorem State.setKl_fb (k : Keys) : (s.setKl k).fb = s.fb := rfl
@[simp] theorem State.setKl_kl (k : Keys) : (s.setKl k).kl = k := rfl
@[simp] theorem State.setKl_status (k : Keys) : (s.setKl k).status = s.status := rfl
@[simp] theorem State.setKl_params (k : Keys) : (s.setKl k).params = s.params := rfl
@[simp] theorem State.setKl_inputs (k : Keys) : (s.setKl k).inputs = s.inputs := rfl
@[simp] theorem State.setKl_ports (k : Keys) : (s.setKl k).ports = s.ports := rfl
@[simp] theorem State.setKl_draws (k : Keys) : (s.setKl k).draws = s.draws := rfl
@[simp] theorem State.setKl_out (k : Keys) : (s.setKl k).out = s.out := rfl
@[simp] theorem State.setKl_reg (k : Keys) (r : Reg) : (s.setKl k).reg r = s.reg r := rfl
@[simp] theorem State.setKl_readByte (k : Keys) (n : Nat) : (s.setKl k).readByte n = s.readByte n := rfl

/-! ### setOut -/

@[simp] theorem State.setOut_v (o : StepOutput) : (s.setOut o).v = s.v := rfl
@[simp] theorem State.setOut_i (o : StepOutput) : (s.setOut o).i = s.i := rfl
@[simp] theorem State.setOut_pc (o : StepOutput) : (s.setOut o).pc = s.pc := rfl
@[simp] theorem State.setOut_stack (o : StepOutput) : (s.setOut o).stack = s.stack := rfl
@[simp] theorem State.setOut_dt (o : StepOutput) : (s.setOut o).dt = s.dt := rfl
@[simp] theorem State.setOut_st (o : StepOutput) : (s.setOut o).st = s.st := rfl
@[simp] theorem State.setOut_mem (o : StepOutput) : (s.setOut o).mem = s.mem := rfl
@[simp] theorem State.setOut_fb (o : StepOutput) : (s.setOut o).fb = s.fb := rfl
@[simp] theorem State.setOut_kl (o : StepOutput) : (s.setOut o).kl = s.kl := rfl
@[simp] theorem State.setOut_status (o : StepOutput) : (s.setOut o).status = s.status := rfl
@[simp] theorem State.setOut_params (o : StepOutput) : (s.setOut o).params = s.params := rfl
@[simp] theorem State.setOut_inputs (o : StepOutput) : (s.setOut o).inputs = s.inputs := rfl
@[simp] theorem State.setOut_ports (o : StepOutput) : (s.setOut o).ports = s.ports := rfl
@[simp] theorem State.setOut_draws (o : StepOutput) : (s.setOut o).draws = s.draws := rfl
@[simp] theorem State.setOut_out (o : StepOutput) : (s.setOut o).out = some o := rfl
@[simp] theorem State.setOut_reg (o : StepOutput) (r : Reg) : (s.setOut o).reg r = s.reg r := rfl
@[simp] theorem State.setOut_readByte (o : StepOutput) (n : Nat) : (s.setOut o).readByte n = s.readByte n := rfl

/-! ### setReg, loadRegs, raise: the fields -/

@[simp] theorem State.setReg_i (r : Reg) (b : Byte) : (s.setReg r b).i = s.i := rfl
@[simp] theorem State.setReg_pc (r : Reg) (b : Byte) : (s.setReg r b).pc = s.pc := rfl
@[simp] theorem State.setReg_stack (r : Reg) (b : Byte) : (s.setReg r b).stack = s.stack := rfl
@[simp] theorem State.setReg_dt (r : Reg) (b : Byte) : (s.setReg r b).dt = s.dt := rfl
@[simp] theorem State.setReg_st (r : Reg) (b : Byte) : (s.setReg r b).st = s.st := rfl
@[simp] theorem State.setReg_mem (r : Reg) (b : Byte) : (s.setReg r b).mem = s.mem := rfl
@[simp] theorem State.setReg_fb (r : Reg) (b : Byte) : (s.setReg r b).fb = s.fb := rfl
@[simp] theorem State.setReg_kl (r : Reg) (b : Byte) : (s.setReg r b).kl = s.kl := rfl
@[simp] theorem State.setReg_status (r : Reg) (b : Byte) : (s.setReg r b).status = s.status := rfl
@[simp] theorem State.setReg_params (r : Reg) (b : Byte) : (s.setReg r b).params = s.params := rfl
@[simp] theorem State.setReg_inputs (r : Reg) (b : Byte) : (s.setReg r b).inputs = s.inputs := rfl
@[simp] theorem State.setReg_ports (r : Reg) (b : Byte) : (s.setReg r b).ports = s.ports := rfl
@[simp] theorem State.setReg_draws (r : Reg) (b : Byte) : (s.setReg r b).draws = s.draws := rfl
@[simp] theorem State.setReg_out (r : Reg) (b : Byte) : (s.setReg r b).out = s.out := rfl
@[simp] theorem State.setReg_readByte (r : Reg) (b : Byte) (n : Nat) : (s.setReg r b).readByte n = s.readByte n := rfl

@[simp] theorem State.loadRegs_i (bs : List Byte) : (s.loadRegs bs).i = s.i := rfl
@[simp] theorem State.loadRegs_pc (bs : List Byte) : (s.loadRegs bs).pc = s.pc := rfl
@[simp] theorem State.loadRegs_stack (bs : List Byte) : (s.loadRegs bs).stack = s.stack := rfl
@[simp] theorem State.loadRegs_dt (bs : List Byte) : (s.loadRegs bs).dt = s.dt := rfl
@[simp] theorem State.loadRegs_st (bs : List Byte) : (s.loadRegs bs).st = s.st := rfl
@[simp] theorem State.loadRegs_mem (bs : List Byte) : (s.loadRegs bs).mem = s.mem := rfl
@[simp] theorem State.loadRegs_fb (bs : List Byte) : (s.loadRegs bs).fb = s.fb := rfl
@[simp] theorem State.loadRegs_kl (bs : List Byte) : (s.loadRegs bs).kl = s.kl := rfl
@[simp] theorem State.loadRegs_status (bs : List Byte) : (s.loadRegs bs).status = s.status := rfl
@[simp] theorem State.loadRegs_params (bs : List Byte) : (s.loadRegs bs).params = s.params := rfl
@[simp] theorem State.loadRegs_inputs (bs : List Byte) : (s.loadRegs bs).inputs = s.inputs := rfl
@[simp] theorem State.loadRegs_ports (bs : List Byte) : (s.loadRegs bs).ports = s.ports := rfl
@[simp] theorem State.loadRegs_draws (bs : List Byte) : (s.loadRegs bs).draws = s.draws := rfl
@[simp] theorem State.loadRegs_out (bs : List Byte) : (s.loadRegs bs).out = s.out := rfl

@[simp] theorem State.raise_v (r : Fault) : (s.raise r).v = Config.unspecifiedV s.draws := rfl
@[simp] theorem State.raise_i (r : Fault) : (s.raise r).i = Config.unspecifiedI s.draws := rfl
@[simp] theorem State.raise_pc (r : Fault) : (s.raise r).pc = Config.unspecifiedPc s.draws := rfl
@[simp] theorem State.raise_stack (r : Fault) : (s.raise r).stack = Config.unspecifiedStack s.draws := rfl
@[simp] theorem State.raise_dt (r : Fault) : (s.raise r).dt = Config.unspecifiedDt s.draws := rfl
@[simp] theorem State.raise_st (r : Fault) : (s.raise r).st = Config.unspecifiedSt s.draws := rfl
@[simp] theorem State.raise_mem (r : Fault) : (s.raise r).mem = Memory.build s.params (Config.unspecifiedByte s.draws) := rfl
@[simp] theorem State.raise_fb (r : Fault) : (s.raise r).fb = Config.unspecifiedFb s.draws := rfl
@[simp] theorem State.raise_kl (r : Fault) : (s.raise r).kl =
    { mask := Config.unspecifiedKeyMask s.draws, last := Config.unspecifiedKeyLast s.draws } := rfl
@[simp] theorem State.raise_status (r : Fault) : (s.raise r).status = .faulted r := rfl
@[simp] theorem State.raise_params (r : Fault) : (s.raise r).params = s.params := rfl
@[simp] theorem State.raise_inputs (r : Fault) : (s.raise r).inputs = s.inputs := rfl
@[simp] theorem State.raise_ports (r : Fault) : (s.raise r).ports = s.ports := rfl
@[simp] theorem State.raise_draws (r : Fault) : (s.raise r).draws = s.draws := rfl
@[simp] theorem State.raise_out (r : Fault) : (s.raise r).out = some (.fault r) := rfl

/-! ### Registers -/

/-- A register written reads as what was written. -/
@[simp] theorem State.reg_setReg_self (r : Reg) (b : Byte) : (s.setReg r b).reg r = b := by
  simp [State.reg, State.setReg]

/-- Writing one register leaves every other as it was. -/
theorem State.reg_setReg_of_ne (r q : Reg) (b : Byte) (h : q ≠ r) : (s.setReg r b).reg q = s.reg q := by
  have hv : r.val ≠ q.val := fun e => h (Fin.ext e.symm)
  simp [State.reg, State.setReg, hv]

/-- A register read after a write, in one equation. -/
theorem State.reg_setReg (r q : Reg) (b : Byte) : (s.setReg r b).reg q = if q = r then b else s.reg q := by
  split
  · next h => rw [h, State.reg_setReg_self]
  · next h => exact s.reg_setReg_of_ne r q b h

/-- Two register files that agree on every register are one. -/
theorem State.v_ext {s t : State} (h : ∀ r, s.reg r = t.reg r) : s.v = t.v :=
  Vector.ext fun i hi => h ⟨i, hi⟩

/-- Bytes loaded into the register file from V[k] on. -/
theorem loadFrom_get (bs : List Byte) (v : Vector Byte 16) (k : Nat) (r : Reg) :
    (loadFrom v k bs)[r.val] =
      if h : k ≤ r.val ∧ r.val < k + bs.length then bs[r.val - k]'(by omega) else v[r.val] := by
  induction bs generalizing v k with
  | nil => rw [dif_neg (by simp)]; rfl
  | cons b bs ih =>
    rw [loadFrom, ih]
    rcases Nat.lt_trichotomy r.val k with hlt | heq | hgt
    · rw [dif_neg (by omega), dif_neg (by omega), Vector.getElem_setIfInBounds_ne (h := by omega)]
    · rw [dif_neg (by omega), dif_pos (by simp; omega)]
      simp [← heq]
    · by_cases hr : r.val < k + 1 + bs.length
      · rw [dif_pos ⟨hgt, hr⟩, dif_pos (by simp; omega)]
        obtain ⟨d, hd⟩ : ∃ d, r.val - k = d + 1 := ⟨r.val - k - 1, by omega⟩
        simp [hd, show r.val - (k + 1) = d by omega]
      · rw [dif_neg (by omega), dif_neg (by simp; omega), Vector.getElem_setIfInBounds_ne (h := by omega)]

/-- Registers after `loadRegs`: the first ones hold the bytes, the others are as they were. -/
theorem State.reg_loadRegs (bs : List Byte) (r : Reg) :
    (s.loadRegs bs).reg r = if h : r.val < bs.length then bs[r.val] else s.reg r := by
  have h := loadFrom_get bs s.v 0 r
  simpa [State.loadRegs, State.reg] using h

/-- V0 to Vx are x + 1 bytes. -/
@[simp] theorem State.regsUpTo_length (x : Reg) : (s.regsUpTo x).length = x.val + 1 := by
  simp [State.regsUpTo]

/-- Byte `r` of V0 to Vx is Vr. -/
theorem State.regsUpTo_getElem (x : Reg) (r : Nat) (h : r < (s.regsUpTo x).length) :
    (s.regsUpTo x)[r] = s.reg ⟨r, by simp at h; omega⟩ := by
  simp [State.regsUpTo, State.reg]

end Sys2Proof.Machine
end

