-- ==== Sys2Proof/Laws/Display.lean ====
section
/-! SUPPORT. The laws of the framebuffer, and what each level of the rasterizer does to a cell and to the collision. -/

namespace Sys2Proof.Machine

/-! ### Cells -/

/-- A cell read after one cell is inverted. -/
theorem fbCell_fbFlip (fb : Framebuffer) (x c : Column) (y r : Row) :
    fbCell (fbFlip fb x y) c r = (fbCell fb c r ^^ (decide (c = x) && decide (r = y))) := by
  by_cases hr : r = y
  · subst hr
    by_cases hc : c = x
    · subst hc; simp [fbCell, fbFlip]
    · have : x.val ≠ c.val := fun e => hc (Fin.ext e.symm)
      simp [fbCell, fbFlip, hc, this]
  · have : y.val ≠ r.val := fun e => hr (Fin.ext e.symm)
    simp [fbCell, fbFlip, hr, this]

/-- Framebuffers that agree on every cell are one. -/
theorem fb_ext {fb gb : Framebuffer} (h : ∀ x y, fbCell fb x y = fbCell gb x y) : fb = gb :=
  Vector.ext fun r hr => Vector.ext fun c hc => h ⟨c, hc⟩ ⟨r, hr⟩

@[simp] theorem fbCell_fbClear (x : Column) (y : Row) : fbCell fbClear x y = false := by
  simp [fbCell, fbClear]

/-- FB_OUT read at (x, y) is the cell (x, y). -/
@[simp] theorem pixel_screenCopy (fb : Framebuffer) (x : Column) (y : Row) :
    pixel (screenCopy fb) x y = fbCell fb x y := by
  have hx := x.isLt
  simp only [pixel, screenCopy, Vector.getElem_ofFn]
  congr 1
  · exact Fin.ext (by dsimp only; omega)
  · exact Fin.ext (by dsimp only; omega)

/-! ### What drawing does -/

/-- `e` is `d` with the cells of `P` inverted, and collided if `d` had or if a set cell was among them. -/
structure Xors (P : Column → Row → Bool) (d e : Framebuffer × Bool) : Prop where
  cells : ∀ x y, fbCell e.1 x y = (fbCell d.1 x y ^^ P x y)
  collision : e.2 = true ↔ d.2 = true ∨ ∃ x y, fbCell d.1 x y = true ∧ P x y = true

/-- Drawing nothing. -/
theorem Xors.nothing (d : Framebuffer × Bool) : Xors (fun _ _ => false) d d :=
  ⟨by simp, by simp⟩

/-- Drawing on two sets of cells that do not meet, one after the other. -/
theorem Xors.trans {P Q : Column → Row → Bool} {d e f : Framebuffer × Bool} (h : Xors P d e) (k : Xors Q e f)
    (disjoint : ∀ x y, P x y = true → Q x y = false) : Xors (fun x y => P x y || Q x y) d f := by
  constructor
  · intro x y
    have := disjoint x y
    rw [k.cells, h.cells]
    cases hP : P x y <;> cases hQ : Q x y <;> simp_all
  · rw [k.collision, h.collision]
    constructor
    · rintro ((hd | ⟨x, y, hc, hP⟩) | ⟨x, y, hc, hQ⟩)
      · exact .inl hd
      · exact .inr ⟨x, y, hc, by simp [hP]⟩
      · refine .inr ⟨x, y, ?_, by simp [hQ]⟩
        have hP : P x y = false := by
          cases hP : P x y
          · rfl
          · simp [disjoint x y hP] at hQ
        rw [h.cells, hP] at hc
        simpa using hc
    · rintro (hd | ⟨x, y, hc, hPQ⟩)
      · exact .inl (.inl hd)
      · cases hP : P x y
        · rw [hP, Bool.false_or] at hPQ
          exact .inr ⟨x, y, by rw [h.cells, hP, hc]; rfl, hPQ⟩
        · exact .inl (.inr ⟨x, y, hc, hP⟩)

/-- The same cells said in another way. -/
theorem Xors.congr {P Q : Column → Row → Bool} {d e : Framebuffer × Bool} (h : Xors P d e)
    (same : ∀ x y, P x y = Q x y) : Xors Q d e := by
  have : P = Q := funext fun x => funext fun y => same x y
  exact this ▸ h

/-- One pixel. -/
theorem drawPixel_xors (bit : Bool) (x : Column) (y : Row) (d : Framebuffer × Bool) :
    Xors (fun c r => bit && (decide (c = x) && decide (r = y))) d (drawPixel bit x y d) := by
  cases bit
  · exact Xors.nothing d
  · constructor
    · intro c r; simp [drawPixel, fbCell_fbFlip]
    · simp [drawPixel]

/-- The columns `cs`, rising, of one sprite row: those past the right edge are clipped. -/
theorem drawColumns_xors (b : Byte) (x0 : Nat) (y : Row) (cs : List Nat) (rising : cs.Pairwise (· < ·))
    (d : Framebuffer × Bool) :
    Xors (fun c r => decide (r = y) && cs.any fun k => decide (x0 + k = c.val) && rowBit b k) d
      (drawColumns b x0 y cs d) := by
  induction cs generalizing d with
  | nil => exact (Xors.nothing d).congr (by simp)
  | cons k cs ih =>
    obtain ⟨low, rest⟩ := List.pairwise_cons.mp rising
    rw [drawColumns]
    split
    · next h =>
      refine ((drawPixel_xors (rowBit b k) ⟨x0 + k, h⟩ y d).trans (ih rest _) fun c r hk => ?_).congr fun c r => ?_
      · simp only [Bool.and_eq_true, decide_eq_true_eq] at hk
        obtain ⟨-, rfl, -⟩ := hk
        simp only [Bool.and_eq_false_iff, List.any_eq_false, Bool.and_eq_true, decide_eq_true_eq, not_and]
        exact .inr fun j hj he => absurd (low j hj) (by omega)
      · simp only [List.any_cons, Fin.ext_iff]
        cases rowBit b k <;> by_cases hc : c.val = x0 + k <;> by_cases hr : r.val = y.val <;> simp [hc, hr, eq_comm]
    · next h =>
      refine (Xors.nothing d).congr fun c r => ?_
      have hc := c.isLt
      symm
      simp only [Bool.and_eq_false_iff, List.any_eq_false, Bool.and_eq_true, decide_eq_true_eq, not_and]
      refine .inr fun j hj he => ?_
      rcases List.mem_cons.mp hj with rfl | hj
      · omega
      · have := low j hj; omega

/-- The rows of a sprite from row `yy` of the screen on: those past the bottom edge are clipped. -/
theorem drawRows_xors (x0 : Nat) (sprite : List Byte) (yy : Nat) (d : Framebuffer × Bool) :
    Xors (fun c r => decide (yy ≤ r.val) && (sprite[r.val - yy]?).any fun b =>
        (List.range 8).any fun k => decide (x0 + k = c.val) && rowBit b k) d (drawRows x0 yy sprite d) := by
  induction sprite generalizing yy d with
  | nil => exact (Xors.nothing d).congr (by simp)
  | cons b sprite ih =>
    rw [drawRows]
    split
    · next h =>
      refine ((drawColumns_xors b x0 ⟨yy, h⟩ (List.range 8) List.pairwise_lt_range d).trans (ih (yy + 1) _)
        fun c r hk => ?_).congr fun c r => ?_
      · simp only [Bool.and_eq_true, decide_eq_true_eq] at hk
        obtain ⟨rfl, -⟩ := hk
        simp
      · rcases Nat.lt_trichotomy r.val yy with hlt | heq | hgt
        · simp [Fin.ext_iff, show ¬ r.val = yy by omega, show ¬ yy ≤ r.val by omega, show ¬ yy + 1 ≤ r.val by omega]
        · simp [Fin.ext_iff, heq]
        · obtain ⟨j, hj⟩ : ∃ j, r.val - yy = j + 1 := ⟨r.val - yy - 1, by omega⟩
          simp [Fin.ext_iff, hj, show ¬ r.val = yy by omega, show yy ≤ r.val by omega, show yy + 1 ≤ r.val by omega,
            show r.val - (yy + 1) = j by omega]
    · next h =>
      refine (Xors.nothing d).congr fun c r => ?_
      have hr := r.isLt
      simp [show ¬ yy ≤ r.val by omega]

end Sys2Proof.Machine
end

