-- ==== Sys2Proof/Laws/Fields.lean ====
section
/-! SUPPORT. Fields and packed words: reading a field of a packed word gives the field, packing the fields of a word gives
the word, and each field is the number its bits are. -/

namespace Sys2Proof

/-! ### Fields of packed words -/

theorem fieldOp_packNNN (f : Nibble) (nnn : Addr12) : fieldOp (packNNN f nnn) = f := by
  ext i hi
  simp only [fieldOp, packNNN, place]
  interval_cases i <;> simp

theorem fieldNNN_packNNN (f : Nibble) (nnn : Addr12) : fieldNNN (packNNN f nnn) = nnn := by
  ext i hi
  simp only [fieldNNN, packNNN, place]
  interval_cases i <;> simp

theorem fieldOp_packXNN (f : Nibble) (x : Reg) (nn : Byte) : fieldOp (packXNN f x nn) = f := by
  ext i hi
  simp only [fieldOp, packXNN, place]
  interval_cases i <;> simp

theorem fieldX_packXNN (f : Nibble) (x : Reg) (nn : Byte) : fieldX (packXNN f x nn) = x := by
  have h : (packXNN f x nn).extractLsb' 8 4 = regBits x := by
    ext i hi
    simp only [packXNN, place]
    interval_cases i <;> simp
  simp [fieldX, h, regBits]

theorem fieldNN_packXNN (f : Nibble) (x : Reg) (nn : Byte) : fieldNN (packXNN f x nn) = nn := by
  ext i hi
  simp only [fieldNN, packXNN, place]
  interval_cases i <;> simp

theorem fieldOp_packXYN (f : Nibble) (x y : Reg) (n : Nibble) : fieldOp (packXYN f x y n) = f := by
  ext i hi
  simp only [fieldOp, packXYN, place]
  interval_cases i <;> simp

theorem fieldX_packXYN (f : Nibble) (x y : Reg) (n : Nibble) : fieldX (packXYN f x y n) = x := by
  have h : (packXYN f x y n).extractLsb' 8 4 = regBits x := by
    ext i hi
    simp only [packXYN, place]
    interval_cases i <;> simp
  simp [fieldX, h, regBits]

theorem fieldY_packXYN (f : Nibble) (x y : Reg) (n : Nibble) : fieldY (packXYN f x y n) = y := by
  have h : (packXYN f x y n).extractLsb' 4 4 = regBits y := by
    ext i hi
    simp only [packXYN, place]
    interval_cases i <;> simp
  simp [fieldY, h, regBits]

theorem fieldN_packXYN (f : Nibble) (x y : Reg) (n : Nibble) : fieldN (packXYN f x y n) = n := by
  ext i hi
  simp only [fieldN, packXYN, place]
  interval_cases i <;> simp

/-! ### Words of packed fields -/

theorem regBits_fieldX (op : Word) : regBits (fieldX op) = op.extractLsb' 8 4 := rfl

theorem regBits_fieldY (op : Word) : regBits (fieldY op) = op.extractLsb' 4 4 := rfl

theorem packNNN_fields (op : Word) : packNNN (fieldOp op) (fieldNNN op) = op := by
  ext i hi
  simp only [fieldOp, fieldNNN, packNNN, place]
  interval_cases i <;> simp

theorem packXNN_fields (op : Word) : packXNN (fieldOp op) (fieldX op) (fieldNN op) = op := by
  ext i hi
  simp only [packXNN, regBits_fieldX, fieldOp, fieldNN, place]
  interval_cases i <;> simp

theorem packXYN_fields (op : Word) : packXYN (fieldOp op) (fieldX op) (fieldY op) (fieldN op) = op := by
  ext i hi
  simp only [packXYN, regBits_fieldX, regBits_fieldY, fieldOp, fieldN, place]
  interval_cases i <;> simp

/-! ### Fields as numbers -/

theorem fieldOp_toNat (op : Word) : (fieldOp op).toNat = op.toNat / 2 ^ 12 % 2 ^ 4 := by
  simp [fieldOp, BitVec.extractLsb'_toNat, Nat.shiftRight_eq_div_pow]

theorem fieldX_val (op : Word) : (fieldX op).val = op.toNat / 2 ^ 8 % 2 ^ 4 := by
  simp [fieldX, Nat.shiftRight_eq_div_pow]

theorem fieldY_val (op : Word) : (fieldY op).val = op.toNat / 2 ^ 4 % 2 ^ 4 := by
  simp [fieldY, Nat.shiftRight_eq_div_pow]

theorem fieldN_toNat (op : Word) : (fieldN op).toNat = op.toNat % 2 ^ 4 := by
  simp [fieldN, BitVec.extractLsb'_toNat]

theorem fieldNN_toNat (op : Word) : (fieldNN op).toNat = op.toNat % 2 ^ 8 := by
  simp [fieldNN, BitVec.extractLsb'_toNat]

theorem fieldNNN_toNat (op : Word) : (fieldNNN op).toNat = op.toNat % 2 ^ 12 := by
  simp [fieldNNN, BitVec.extractLsb'_toNat]

/-- The two bytes of a word, in memory order, are that word again. -/
theorem wordOfBytes_toNat (hi lo : Byte) : (wordOfBytes hi lo).toNat = hi.toNat * 256 + lo.toNat := by
  simp [wordOfBytes]; omega

theorem wordOfBytes_bytesOfWord (w : Word) : wordOfBytes (w.extractLsb' 8 8) (w.extractLsb' 0 8) = w := by
  apply BitVec.eq_of_toNat_eq
  rw [wordOfBytes_toNat]
  simp [BitVec.extractLsb'_toNat, Nat.shiftRight_eq_div_pow]
  omega

/-- Decoding rejects a word only as unknown. -/
theorem decode_error (op : Word) (e : DecodeReject) (h : decode op = .error e) : e = .unknown op := by
  unfold decode decode0 decode8 decodeE decodeF at h
  repeat' split at h
  all_goals first | (cases h; rfl) | simp at h

end Sys2Proof
end

