-- ==== Sys2Proof/Laws/Memory.lean ====
section
/-! SUPPORT. The laws of memory: a read after a write, and that every memory operation keeps the canonical form. -/

namespace Sys2Proof.Machine

variable (p : Params)

/-- The order of a memory's cells: addresses strictly rising. -/
abbrev Rising (m : Memory) : Prop := m.Pairwise fun c d => c.1 < d.1

/-- An address below every cell reads as unlisted. -/
theorem Memory.read_of_lt (m : Memory) (a : Nat) (h : ∀ c ∈ m, a < c.1) :
    Memory.read p m a = Memory.unlisted p a := by
  induction m with
  | nil => rfl
  | cons c m ih =>
    have hc := h c (by simp)
    rw [Memory.read, if_neg (by omega), ih fun d hd => h d (by simp [hd])]

/-- A byte read after a byte written. -/
theorem Memory.read_write (m : Memory) (a c : Nat) (b : Byte) (h : Rising m) :
    Memory.read p (Memory.write p m a b) c = if c = a then b else Memory.read p m c := by
  induction m with
  | nil => by_cases hb : b = Memory.unlisted p a <;> by_cases hc : c = a <;> simp_all [Memory.write, Memory.read, eq_comm]
  | cons d m ih =>
    obtain ⟨k, e⟩ := d
    obtain ⟨hlt, hm⟩ := List.pairwise_cons.mp h
    have below : ∀ x, x < k → Memory.read p ((k, e) :: m) x = Memory.unlisted p x := fun x hx =>
      Memory.read_of_lt p _ x fun d hd => by
        rcases List.mem_cons.mp hd with rfl | hd
        · exact hx
        · exact Nat.lt_trans hx (hlt d hd)
    have above : Memory.read p m k = Memory.unlisted p k := Memory.read_of_lt p m k hlt
    rcases Nat.lt_trichotomy a k with h1 | rfl | h1
    · by_cases hb : b = Memory.unlisted p a
      · rw [Memory.write, if_pos h1, if_pos hb]
        split
        · next hc => rw [hc, below a h1, hb]
        · rfl
      · rw [Memory.write, if_pos h1, if_neg hb]
        by_cases hc : c = a
        · simp [Memory.read, hc]
        · simp [Memory.read, hc, Ne.symm hc]
    · by_cases hb : b = Memory.unlisted p a
      · rw [Memory.write, if_neg (by omega), if_pos rfl, if_pos hb]
        by_cases hc : c = a
        · simp [hc, hb, above]
        · simp [Memory.read, hc, Ne.symm hc]
      · rw [Memory.write, if_neg (by omega), if_pos rfl, if_neg hb]
        by_cases hc : c = a
        · simp [Memory.read, hc]
        · simp [Memory.read, hc, Ne.symm hc]
    · rw [Memory.write, if_neg (by omega), if_neg (by omega), Memory.read, ih hm, Memory.read]
      by_cases hk : k = c
      · simp [hk, show ¬ c = a by omega]
      · simp [hk]

/-- A write adds no address but its own. -/
theorem Memory.mem_write (m : Memory) (a : Nat) (b : Byte) (c : Host.Cell) (h : c ∈ Memory.write p m a b) :
    c ∈ m ∨ (c = (a, b) ∧ b ≠ Memory.unlisted p a) := by
  induction m with
  | nil => by_cases hb : b = Memory.unlisted p a <;> simp_all [Memory.write]
  | cons d m ih =>
    obtain ⟨k, e⟩ := d
    rw [Memory.write] at h
    split at h <;> (try split at h) <;> (try split at h) <;> simp_all <;> tauto

/-- A write keeps the order of the cells. -/
theorem Memory.rising_write (m : Memory) (a : Nat) (b : Byte) (h : Rising m) : Rising (Memory.write p m a b) := by
  induction m with
  | nil => by_cases hb : b = Memory.unlisted p a <;> simp [Memory.write, hb, Rising]
  | cons d m ih =>
    obtain ⟨k, e⟩ := d
    obtain ⟨hlt, hm⟩ := List.pairwise_cons.mp h
    rw [Memory.write]
    split
    · next h1 =>
      split
      · exact h
      · refine List.pairwise_cons.mpr ⟨fun d hd => ?_, h⟩
        rcases List.mem_cons.mp hd with rfl | hd
        · exact h1
        · exact Nat.lt_trans h1 (hlt d hd)
    · next h1 =>
      split
      · next h2 =>
        split
        · exact hm
        · exact List.pairwise_cons.mpr ⟨fun d hd => h2 ▸ hlt d hd, hm⟩
      · next h2 =>
        refine List.pairwise_cons.mpr ⟨fun d hd => ?_, ih hm⟩
        rcases Memory.mem_write p m a b d hd with hd | ⟨rfl, -⟩
        · exact hlt d hd
        · simp; omega

/-- A write inside memory keeps the canonical form. -/
theorem Memory.wf_write (m : Memory) (a : Nat) (b : Byte) (h : Memory.wf p m) (ha : a < memSize) :
    Memory.wf p (Memory.write p m a b) := by
  refine ⟨Memory.rising_write p m a b h.1, fun c hc => ?_⟩
  rcases Memory.mem_write p m a b c hc with hc | ⟨rfl, hb⟩
  · exact h.2 c hc
  · exact ⟨ha, hb⟩

/-- Writes of ascending bytes keep the canonical form. -/
theorem Memory.wf_writeAll (bs : List Byte) (m : Memory) (a : Nat) (h : Memory.wf p m)
    (ha : a + bs.length ≤ memSize) : Memory.wf p (Memory.writeAll p m a bs) := by
  induction bs generalizing m a with
  | nil => exact h
  | cons b bs ih =>
    simp only [List.length_cons] at ha
    exact ih _ _ (Memory.wf_write p m a b h (by omega)) (by omega)

/-- A byte read after bytes written at ascending addresses. -/
theorem Memory.read_writeAll (bs : List Byte) (m : Memory) (a c : Nat) (h : Rising m) :
    Memory.read p (Memory.writeAll p m a bs) c =
      if h : a ≤ c ∧ c < a + bs.length then bs[c - a]'(by omega) else Memory.read p m c := by
  induction bs generalizing m a with
  | nil => rw [dif_neg (by simp)]; rfl
  | cons b bs ih =>
    rw [Memory.writeAll, ih _ _ (Memory.rising_write p m a b h), Memory.read_write p m a c b h]
    rcases Nat.lt_trichotomy c a with hlt | rfl | hgt
    · rw [dif_neg (by omega), dif_neg (by omega), if_neg (by omega)]
    · rw [dif_neg (by omega), dif_pos (by simp), if_pos rfl]; simp
    · by_cases hc : c < a + 1 + bs.length
      · obtain ⟨d, hd⟩ : ∃ d, c - a = d + 1 := ⟨c - a - 1, by omega⟩
        rw [dif_pos ⟨hgt, hc⟩, dif_pos (by simp; omega)]
        simp [hd, show c - (a + 1) = d by omega]
      · rw [dif_neg (by omega), dif_neg (by simp; omega), if_neg (by omega)]

/-- Two memories in canonical form that read alike are one: equal memories are equal data. -/
theorem Memory.ext_of_wf (m : Memory) : ∀ l : Memory, Memory.wf p m → Memory.wf p l →
    (∀ a, Memory.read p m a = Memory.read p l a) → m = l := by
  have tail : ∀ {c : Host.Cell} {m : Memory}, Memory.wf p (c :: m) → Memory.wf p m := fun h =>
    ⟨(List.pairwise_cons.mp h.1).2, fun d hd => h.2 d (by simp [hd])⟩
  have head : ∀ {c : Host.Cell} {m : Memory}, Memory.read p (c :: m) c.1 = c.2 := fun {c m} => by
    obtain ⟨k, e⟩ := c; simp [Memory.read]
  have low : ∀ {c : Host.Cell} {m : Memory}, Memory.wf p (c :: m) → ∀ a, a < c.1 →
      Memory.read p (c :: m) a = Memory.unlisted p a := fun {c m} h a ha =>
    Memory.read_of_lt p _ a fun d hd => by
      rcases List.mem_cons.mp hd with rfl | hd
      · exact ha
      · exact Nat.lt_trans ha ((List.pairwise_cons.mp h.1).1 d hd)
  induction m with
  | nil =>
    intro l _ hl hr
    cases l with
    | nil => rfl
    | cons d l => exact absurd (head ▸ (hr d.1).symm) (hl.2 d (by simp)).2
  | cons c m ih =>
    intro l hm hl hr
    cases l with
    | nil => exact absurd (head ▸ hr c.1) (hm.2 c (by simp)).2
    | cons d l =>
      have hk : c.1 = d.1 := by
        rcases Nat.lt_trichotomy c.1 d.1 with h | h | h
        · exact absurd (low hl c.1 h ▸ head ▸ hr c.1) (hm.2 c (by simp)).2
        · exact h
        · exact absurd (low hm d.1 h ▸ head ▸ (hr d.1).symm) (hl.2 d (by simp)).2
      have hcd : c = d := Prod.ext hk (by rw [← head (c := c) (m := m), hr, hk, head])
      subst hcd
      congr 1
      refine ih l (tail hm) (tail hl) fun a => ?_
      by_cases ha : c.1 = a
      · subst ha
        rw [Memory.read_of_lt p m _ (List.pairwise_cons.mp hm.1).1,
          Memory.read_of_lt p l _ (List.pairwise_cons.mp hl.1).1]
      · have h := hr a
        obtain ⟨k, e⟩ := c
        simpa [Memory.read, ha] using h

/-- The cells of a memory built from a function, over any list of addresses. -/
theorem Memory.build_eq (f : Nat → Byte) : Memory.build p f =
    ((List.range memSize).filter fun a => f a ≠ Memory.unlisted p a).map fun a => (a, f a) := by
  unfold Memory.build
  rfl

/-- A memory built from a function is in canonical form. -/
theorem Memory.wf_build (f : Nat → Byte) : Memory.wf p (Memory.build p f) := by
  rw [Memory.build_eq]
  generalize hl : List.range memSize = l
  have rising : l.Pairwise (· < ·) := hl ▸ List.pairwise_lt_range
  have inside : ∀ a ∈ l, a < memSize := fun a ha => List.mem_range.mp (hl.symm ▸ ha)
  refine ⟨List.pairwise_map.mpr (rising.filter _), fun c hc => ?_⟩
  obtain ⟨a, ha, rfl⟩ := List.mem_map.mp hc
  obtain ⟨ha, hf⟩ := List.mem_filter.mp ha
  exact ⟨inside a ha, by simpa using hf⟩

/-- A byte of the state read after bytes written at ascending addresses. -/
theorem State.readByte_writeAll (s : State) (a c : Nat) (bs : List Byte) (h : Rising s.mem) :
    (s.setMem (Memory.writeAll s.params s.mem a bs)).readByte c =
      if h : a ≤ c ∧ c < a + bs.length then bs[c - a]'(by omega) else s.readByte c :=
  Memory.read_writeAll s.params bs s.mem a c h

/-- A byte outside the bytes written. -/
theorem State.readByte_writeAll_of_out (s : State) (a c : Nat) (bs : List Byte) (h : Rising s.mem)
    (out : c < a ∨ a + bs.length ≤ c) :
    (s.setMem (Memory.writeAll s.params s.mem a bs)).readByte c = s.readByte c := by
  rw [s.readByte_writeAll a c bs h, dif_neg (by omega)]

/-- A byte among the bytes written. -/
theorem State.readByte_writeAll_add (s : State) (a k : Nat) (bs : List Byte) (h : Rising s.mem) (hk : k < bs.length) :
    (s.setMem (Memory.writeAll s.params s.mem a bs)).readByte (a + k) = bs[k] := by
  rw [s.readByte_writeAll a (a + k) bs h, dif_pos (by omega)]
  simp

/-- `MemRead` answers the bytes of the range when it is in bounds, and nothing else. -/
theorem State.memRead_eq (s : State) (a n : Nat) (h : a + n ≤ memSize) :
    s.memRead a n = .ok (Memory.readAll s.params s.mem a n) := if_pos h

/-- Byte `k` of the bytes read. -/
theorem Memory.readAll_getElem (m : Memory) (a n k : Nat) (h : k < (Memory.readAll p m a n).length) :
    (Memory.readAll p m a n)[k] = Memory.read p m (a + k) := by
  simp [Memory.readAll]

@[simp] theorem Memory.readAll_length (m : Memory) (a n : Nat) : (Memory.readAll p m a n).length = n := by
  simp [Memory.readAll]

/-- `MemWrite` in bounds. -/
theorem State.memWrite_eq (s : State) (a : Nat) (bs : List Byte) (h : a + bs.length ≤ memSize) :
    s.memWrite a bs = .ok (s.setMem (Memory.writeAll s.params s.mem a bs)) := if_pos h

/-- Everything `MemWrite` can do when it does not fault: memory alone changes, it stays canonical, and every byte reads
as the byte written there or as before. -/
theorem State.memWrite_ok (s t : State) (a : Nat) (bs : List Byte) (h : s.memWrite a bs = .ok t) :
    a + bs.length ≤ memSize ∧ t = s.setMem t.mem ∧ (Memory.wf s.params s.mem → Memory.wf s.params t.mem) ∧
      (Rising s.mem → ∀ c, t.readByte c =
        if h : a ≤ c ∧ c < a + bs.length then bs[c - a]'(by omega) else s.readByte c) := by
  by_cases hb : a + bs.length ≤ memSize
  · rw [s.memWrite_eq a bs hb] at h
    cases h
    exact ⟨hb, rfl, fun hw => Memory.wf_writeAll _ bs _ a hw hb, fun hw c => Memory.read_writeAll _ bs _ a c hw⟩
  · simp [State.memWrite, hb] at h

end Sys2Proof.Machine
end

