-- ==== Sys2Proof/Laws/Cycle.lean ====
section
/-! SUPPORT. What each phase of a step does, field by field, and the ways a step can end. -/

namespace Sys2Proof.Machine

variable (s : State)

/-! ### Sampling and the phases before the execute phase -/

@[simp] theorem State.sampleInputs_v : s.sampleInputs.v = s.v := rfl
@[simp] theorem State.sampleInputs_i : s.sampleInputs.i = s.i := rfl
@[simp] theorem State.sampleInputs_pc : s.sampleInputs.pc = s.pc := rfl
@[simp] theorem State.sampleInputs_stack : s.sampleInputs.stack = s.stack := rfl
@[simp] theorem State.sampleInputs_dt : s.sampleInputs.dt = s.dt := rfl
@[simp] theorem State.sampleInputs_st : s.sampleInputs.st = s.st := rfl
@[simp] theorem State.sampleInputs_mem : s.sampleInputs.mem = s.mem := rfl
@[simp] theorem State.sampleInputs_fb : s.sampleInputs.fb = s.fb := rfl
@[simp] theorem State.sampleInputs_kl : s.sampleInputs.kl = s.kl := rfl
@[simp] theorem State.sampleInputs_status : s.sampleInputs.status = s.status := rfl
@[simp] theorem State.sampleInputs_params : s.sampleInputs.params = s.params := rfl
@[simp] theorem State.sampleInputs_inputs : s.sampleInputs.inputs = s.inputs.tail := rfl
@[simp] theorem State.sampleInputs_ports : s.sampleInputs.ports = s.nextInput := rfl
@[simp] theorem State.sampleInputs_draws : s.sampleInputs.draws = s.draws + 1 := rfl
@[simp] theorem State.sampleInputs_out : s.sampleInputs.out = s.out := rfl
@[simp] theorem State.sampleInputs_reg (r : Reg) : s.sampleInputs.reg r = s.reg r := rfl
@[simp] theorem State.sampleInputs_readByte (a : Nat) : s.sampleInputs.readByte a = s.readByte a := rfl

@[simp] theorem State.timerPhase_v : s.timerPhase.v = s.v := rfl
@[simp] theorem State.timerPhase_i : s.timerPhase.i = s.i := rfl
@[simp] theorem State.timerPhase_pc : s.timerPhase.pc = s.pc := rfl
@[simp] theorem State.timerPhase_stack : s.timerPhase.stack = s.stack := rfl
@[simp] theorem State.timerPhase_dt : s.timerPhase.dt = tickDown s.ports.tick s.dt := rfl
@[simp] theorem State.timerPhase_st : s.timerPhase.st = tickDown s.ports.tick s.st := rfl
@[simp] theorem State.timerPhase_mem : s.timerPhase.mem = s.mem := rfl
@[simp] theorem State.timerPhase_fb : s.timerPhase.fb = s.fb := rfl
@[simp] theorem State.timerPhase_kl : s.timerPhase.kl = s.kl := rfl
@[simp] theorem State.timerPhase_status : s.timerPhase.status = s.status := rfl
@[simp] theorem State.timerPhase_params : s.timerPhase.params = s.params := rfl
@[simp] theorem State.timerPhase_inputs : s.timerPhase.inputs = s.inputs := rfl
@[simp] theorem State.timerPhase_ports : s.timerPhase.ports = s.ports := rfl
@[simp] theorem State.timerPhase_draws : s.timerPhase.draws = s.draws := rfl
@[simp] theorem State.timerPhase_out : s.timerPhase.out = s.out := rfl
@[simp] theorem State.timerPhase_reg (r : Reg) : s.timerPhase.reg r = s.reg r := rfl
@[simp] theorem State.timerPhase_readByte (a : Nat) : s.timerPhase.readByte a = s.readByte a := rfl

@[simp] theorem State.latchPhase_v : s.latchPhase.v = s.v := rfl
@[simp] theorem State.latchPhase_i : s.latchPhase.i = s.i := rfl
@[simp] theorem State.latchPhase_pc : s.latchPhase.pc = s.pc + 2 := rfl
@[simp] theorem State.latchPhase_stack : s.latchPhase.stack = s.stack := rfl
@[simp] theorem State.latchPhase_dt : s.latchPhase.dt = s.dt := rfl
@[simp] theorem State.latchPhase_st : s.latchPhase.st = s.st := rfl
@[simp] theorem State.latchPhase_mem : s.latchPhase.mem = s.mem := rfl
@[simp] theorem State.latchPhase_fb : s.latchPhase.fb = s.fb := rfl
@[simp] theorem State.latchPhase_kl : s.latchPhase.kl = s.ports.keys := rfl
@[simp] theorem State.latchPhase_status : s.latchPhase.status = s.status := rfl
@[simp] theorem State.latchPhase_params : s.latchPhase.params = s.params := rfl
@[simp] theorem State.latchPhase_inputs : s.latchPhase.inputs = s.inputs := rfl
@[simp] theorem State.latchPhase_ports : s.latchPhase.ports = s.ports := rfl
@[simp] theorem State.latchPhase_draws : s.latchPhase.draws = s.draws := rfl
@[simp] theorem State.latchPhase_out : s.latchPhase.out = s.out := rfl
@[simp] theorem State.latchPhase_reg (r : Reg) : s.latchPhase.reg r = s.reg r := rfl
@[simp] theorem State.latchPhase_readByte (a : Nat) : s.latchPhase.readByte a = s.readByte a := rfl

@[simp] theorem State.failFetch_v : s.failFetch.v = s.v := rfl
@[simp] theorem State.failFetch_i : s.failFetch.i = s.i := rfl
@[simp] theorem State.failFetch_pc : s.failFetch.pc = s.pc := rfl
@[simp] theorem State.failFetch_stack : s.failFetch.stack = s.stack := rfl
@[simp] theorem State.failFetch_dt : s.failFetch.dt = s.dt := rfl
@[simp] theorem State.failFetch_st : s.failFetch.st = s.st := rfl
@[simp] theorem State.failFetch_mem : s.failFetch.mem = s.mem := rfl
@[simp] theorem State.failFetch_fb : s.failFetch.fb = s.fb := rfl
@[simp] theorem State.failFetch_kl : s.failFetch.kl = s.kl := rfl
@[simp] theorem State.failFetch_status : s.failFetch.status = s.status := rfl
@[simp] theorem State.failFetch_params : s.failFetch.params = s.params := rfl
@[simp] theorem State.failFetch_inputs : s.failFetch.inputs = s.inputs := rfl
@[simp] theorem State.failFetch_ports : s.failFetch.ports = s.ports := rfl
@[simp] theorem State.failFetch_draws : s.failFetch.draws = s.draws := rfl
@[simp] theorem State.failFetch_out : s.failFetch.out = some .noMoreInstructions := rfl
@[simp] theorem State.failFetch_reg (r : Reg) : s.failFetch.reg r = s.reg r := rfl
@[simp] theorem State.failFetch_readByte (a : Nat) : s.failFetch.readByte a = s.readByte a := rfl

@[simp] theorem State.failDecode_v (op : Word) : (s.failDecode op).v = s.v := rfl
@[simp] theorem State.failDecode_i (op : Word) : (s.failDecode op).i = s.i := rfl
@[simp] theorem State.failDecode_pc (op : Word) : (s.failDecode op).pc = s.pc := rfl
@[simp] theorem State.failDecode_stack (op : Word) : (s.failDecode op).stack = s.stack := rfl
@[simp] theorem State.failDecode_dt (op : Word) : (s.failDecode op).dt = s.dt := rfl
@[simp] theorem State.failDecode_st (op : Word) : (s.failDecode op).st = s.st := rfl
@[simp] theorem State.failDecode_mem (op : Word) : (s.failDecode op).mem = s.mem := rfl
@[simp] theorem State.failDecode_fb (op : Word) : (s.failDecode op).fb = s.fb := rfl
@[simp] theorem State.failDecode_kl (op : Word) : (s.failDecode op).kl = s.kl := rfl
@[simp] theorem State.failDecode_status (op : Word) : (s.failDecode op).status = s.status := rfl
@[simp] theorem State.failDecode_params (op : Word) : (s.failDecode op).params = s.params := rfl
@[simp] theorem State.failDecode_inputs (op : Word) : (s.failDecode op).inputs = s.inputs := rfl
@[simp] theorem State.failDecode_ports (op : Word) : (s.failDecode op).ports = s.ports := rfl
@[simp] theorem State.failDecode_draws (op : Word) : (s.failDecode op).draws = s.draws := rfl
@[simp] theorem State.failDecode_out (op : Word) : (s.failDecode op).out = some (.unknownInstruction op s.pc) := rfl

/-- A timer stepped, as a number: one less on a tick, and not below 0. -/
theorem tickDown_toNat (tick : Bool) (t : Byte) : (tickDown tick t).toNat = t.toNat - (if tick then 1 else 0) := by
  unfold tickDown
  split
  · next h => simp [h]
  · next h =>
    have : t.toNat ≠ 0 := fun e => h (BitVec.eq_of_toNat_eq (by simpa using e))
    cases tick
    · simp
    · simp [BitVec.toNat_sub]; omega

/-- PC after the increment is exact wherever the fetch succeeded. -/
theorem pc_add_two (pc : Word) (h : pc.toNat + 2 ≤ 0x1000) : (pc + 2).toNat = pc.toNat + 2 := by
  simp [BitVec.toNat_add]; omega

/-! ### The fetch -/

theorem State.fetch_of_le (h : s.pc.toNat + 2 ≤ 0x1000) :
    s.fetch = some (wordOfBytes (s.readByte s.pc.toNat) (s.readByte (s.pc.toNat + 1))) := if_pos h

theorem State.fetch_of_gt (h : 0x1000 < s.pc.toNat + 2) : s.fetch = none := if_neg (by unfold memSize; omega)

/-- A fetch of the word whose bytes stand at PC. -/
theorem State.fetch_eq (op : Word) (h : s.pc.toNat + 2 ≤ 0x1000)
    (hop : op.toNat = (s.readByte s.pc.toNat).toNat * 256 + (s.readByte (s.pc.toNat + 1)).toNat) :
    s.fetch = some op := by
  rw [s.fetch_of_le h]
  congr 1
  exact BitVec.eq_of_toNat_eq (by rw [wordOfBytes_toNat, hop])

/-- A fetch that succeeded found its two bytes inside memory. -/
theorem State.fetch_some (op : Word) (h : s.fetch = some op) : s.pc.toNat + 2 ≤ 0x1000 := by
  by_contra hc
  rw [s.fetch_of_gt (by omega)] at h
  cases h

/-- Sampling and the timer phase change nothing the fetch reads. -/
@[simp] theorem State.fetch_before : s.sampleInputs.timerPhase.fetch = s.fetch := rfl

/-- A word placed at PC. -/
theorem State.placeWord_of_le (w : Word) (h : s.pc.toNat + 2 ≤ 0x1000) :
    s.placeWord w = s.setMem (Memory.writeAll s.params s.mem s.pc.toNat (bytesOfWord w)) := if_pos h

/-- A word placed at PC is the word fetched. -/
theorem State.fetch_placeWord (w : Word) (hm : Rising s.mem) (h : s.pc.toNat + 2 ≤ 0x1000) :
    (s.placeWord w).fetch = some w := by
  rw [s.placeWord_of_le w h, State.fetch_of_le _ (by simpa using h), State.setMem_pc]
  have h0 := s.readByte_writeAll_add s.pc.toNat 0 (bytesOfWord w) hm (by simp [bytesOfWord])
  have h1 := s.readByte_writeAll_add s.pc.toNat 1 (bytesOfWord w) hm (by simp [bytesOfWord])
  rw [Nat.add_zero] at h0
  rw [h0, h1]
  exact congrArg some (wordOfBytes_bytesOfWord w)

/-- Placing a word changes no byte but its two. -/
theorem State.readByte_placeWord_of_ne (w : Word) (hm : Rising s.mem) (a : Nat) (h0 : a ≠ s.pc.toNat)
    (h1 : a ≠ s.pc.toNat + 1) : (s.placeWord w).readByte a = s.readByte a := by
  by_cases h : s.pc.toNat + 2 ≤ 0x1000
  · rw [s.placeWord_of_le w h, s.readByte_writeAll_of_out _ _ _ hm (by simp [bytesOfWord]; omega)]
  · rw [State.placeWord, if_neg h]

/-- The table's decoder reads what the decoder reads from the same word. -/
theorem decodeTableWord_eq_some (nbits w : Nat) (i : Instr) :
    decodeTableWord nbits w = some i ↔ decode (BitVec.ofNat 16 (w % 2 ^ nbits)) = .ok i := by
  simp only [decodeTableWord, bytesOfWord, decodeBytes, wordOfBytes_bytesOfWord]
  cases decode (BitVec.ofNat 16 (w % 2 ^ nbits)) <;> simp [Except.map, Except.toOption]

/-! ### The output phase -/

/-- Everything the output phase can do: a Running state gets its `Ok` outputs, a Faulted one is left as it is. -/
theorem State.outputPhase_cases (i : Instr) :
    (s.status = .running ∧ s.outputPhase i =
      s.setOut (.ok (if reportsRedraw i then some (screenCopy s.fb) else none) s.beep)) ∨
    ((∃ reason, s.status = .faulted reason) ∧ s.outputPhase i = s) := by
  unfold State.outputPhase
  cases h : s.status with
  | running => exact .inl ⟨rfl, rfl⟩
  | faulted reason => exact .inr ⟨⟨reason, rfl⟩, rfl⟩

/-- Of a state that is still Running, the output phase records the `Ok` outputs. -/
theorem State.outputPhase_of_running (i : Instr) (h : s.status = .running) :
    s.outputPhase i = s.setOut (.ok (if reportsRedraw i then some (screenCopy s.fb) else none) s.beep) := by
  rw [State.outputPhase, h]

/-! ### The ways a step can end -/

/-- Everything a step can do (40_cycle.md R75). -/
theorem step_cases :
    (∃ reason, s.status = .faulted reason ∧ step s = .fault reason) ∨
    (s.status = .running ∧ s.fetch = none ∧ step s = .next s.sampleInputs.timerPhase.failFetch) ∨
    (∃ op, s.status = .running ∧ s.fetch = some op ∧ decode op = .error (.unknown op) ∧
      step s = .next (s.sampleInputs.timerPhase.latchPhase.failDecode op)) ∨
    ∃ op i, s.status = .running ∧ s.fetch = some op ∧ decode op = .ok i ∧
      step s = finish i (exec i s.sampleInputs.timerPhase.latchPhase) := by
  unfold step runOpcode
  cases hs : s.status with
  | faulted reason => exact .inl ⟨reason, rfl, rfl⟩
  | running =>
    rw [State.fetch_before]
    cases hf : s.fetch with
    | none => exact .inr (.inl ⟨rfl, rfl, rfl⟩)
    | some op =>
      dsimp only
      cases hd : decode op with
      | error e => exact .inr (.inr (.inl ⟨op, rfl, rfl, hd.trans (by rw [decode_error op e hd]), rfl⟩))
      | ok i => exact .inr (.inr (.inr ⟨op, i, rfl, rfl, hd, rfl⟩))

/-- A step whose opcode is fetched and decodes runs it. -/
theorem step_of_decode (op : Word) (i : Instr) (hs : s.status = .running) (hf : s.fetch = some op)
    (hd : decode op = .ok i) : step s = finish i (exec i s.sampleInputs.timerPhase.latchPhase) := by
  rcases step_cases s with ⟨r, h, -⟩ | ⟨-, h, -⟩ | ⟨op', -, h, h', -⟩ | ⟨op', i', -, h, h', e⟩
  · rw [hs] at h; cases h
  · rw [hf] at h; cases h
  · rw [hf] at h; cases h; rw [hd] at h'; cases h'
  · rw [hf] at h; cases h; rw [hd] at h'; cases h'; exact e

end Sys2Proof.Machine
end

