-- ==== Sys2Proof/Laws/Meanings.lean ====
section
/-! SUPPORT. For each operation and each meaning that can fault, everything it can do; and what every meaning leaves as
it was. -/

namespace Sys2Proof.Machine

variable (s : State)

@[simp] theorem State.complete_ok (t : State) : s.complete (.ok t) = .next t := rfl
@[simp] theorem State.complete_error (r : Fault) : s.complete (.error r) = .next (s.raise r) := rfl
@[simp] theorem State.complete_map_ok {α : Type} (f : α → State) (a : α) :
    s.complete ((Except.ok a).map f) = .next (f a) := rfl
@[simp] theorem State.complete_map_error {α : Type} (f : α → State) (r : Fault) :
    s.complete ((Except.error r).map f) = .next (s.raise r) := rfl

/-! ### Operations -/

theorem State.push_of_lt (a : Word) (h : s.stack.length < s.params.stackDepth) :
    s.push a = .ok (s.setStack (s.stack ++ [a])) := if_pos h

theorem State.push_of_full (a : Word) (h : s.params.stackDepth ≤ s.stack.length) :
    s.push a = .error .stackOverflow := if_neg (by omega)

theorem State.pop_of_append (l : List Word) (a : Word) (h : s.stack = l ++ [a]) :
    s.pop = .ok (a, s.setStack l) := by
  simp [State.pop, h]

theorem State.pop_of_nil (h : s.stack = []) : s.pop = .error .stackUnderflow := by
  simp [State.pop, h]

theorem State.keyHeld_of_le (k : Byte) (h : k.toNat ≤ 0xF) :
    s.keyHeld k = .ok (s.kl.mask.getLsbD k.toNat) := if_pos h

theorem State.keyHeld_of_gt (k : Byte) (h : 0xF < k.toNat) : s.keyHeld k = .error .keyRange := if_neg (by omega)

theorem State.memRead_of_gt (a n : Nat) (h : memSize < a + n) : s.memRead a n = .error .memRange := if_neg (by omega)

theorem State.memWrite_of_gt (a : Nat) (bs : List Byte) (h : memSize < a + bs.length) :
    s.memWrite a bs = .error .memRange := if_neg (by omega)

/-! ### Meanings that can fault -/

/-- RET: the last return address goes to PC, or the empty stack underflows. -/
theorem exec_ret_cases :
    (∃ l a, s.stack = l ++ [a] ∧ exec .ret s = .next ((s.setStack l).setPc a)) ∨
    (s.stack = [] ∧ exec .ret s = .next (s.raise .stackUnderflow)) := by
  rcases List.eq_nil_or_concat s.stack with h | ⟨l, a, h⟩
  · exact .inr ⟨h, by simp [exec, execRet, s.pop_of_nil h]⟩
  · rw [List.concat_eq_append] at h
    exact .inl ⟨l, a, h, by simp [exec, execRet, s.pop_of_append l a h]⟩

/-- CALL: PC is pushed and nnn goes to PC, or the full stack overflows. -/
theorem exec_call_cases (nnn : Addr12) :
    (s.stack.length < s.params.stackDepth ∧
      exec (.call nnn) s = .next ((s.setStack (s.stack ++ [s.pc])).setPc (zext16 nnn))) ∨
    (s.params.stackDepth ≤ s.stack.length ∧ exec (.call nnn) s = .next (s.raise .stackOverflow)) := by
  rcases Nat.lt_or_ge s.stack.length s.params.stackDepth with h | h
  · exact .inl ⟨h, by simp [exec, execCall, s.push_of_lt _ h]⟩
  · exact .inr ⟨h, by simp [exec, execCall, s.push_of_full _ h]⟩

/-- LD B: the digits are stored at I, or the range leaves memory. -/
theorem exec_ldB_cases (x : Reg) :
    (s.dataAddr + 3 ≤ memSize ∧
      exec (.ldB x) s = .next (s.setMem (Memory.writeAll s.params s.mem s.dataAddr (decimalDigits (s.reg x))))) ∨
    (memSize < s.dataAddr + 3 ∧ exec (.ldB x) s = .next (s.raise .memRange)) := by
  rcases Nat.lt_or_ge memSize (s.dataAddr + 3) with h | h
  · exact .inr ⟨h, by simp [exec, execLdB, s.memWrite_of_gt _ (decimalDigits _) h]⟩
  · exact .inl ⟨h, by simp [exec, execLdB, s.memWrite_eq _ (decimalDigits _) h]⟩

/-- LD [I], Vx: V0 to Vx are stored at I and I advances, or the range leaves memory. -/
theorem exec_ldStore_cases (x : Reg) :
    (s.dataAddr + (x.val + 1) ≤ memSize ∧ exec (.ldStore x) s =
      .next ((s.setMem (Memory.writeAll s.params s.mem s.dataAddr (s.regsUpTo x))).setI (indexPast s.i x))) ∨
    (memSize < s.dataAddr + (x.val + 1) ∧ exec (.ldStore x) s = .next (s.raise .memRange)) := by
  rcases Nat.lt_or_ge memSize (s.dataAddr + (x.val + 1)) with h | h
  · exact .inr ⟨h, by simp [exec, execLdStore, s.memWrite_of_gt _ (s.regsUpTo x) (by simpa using h)]⟩
  · exact .inl ⟨h, by simp [exec, execLdStore, s.memWrite_eq _ (s.regsUpTo x) (by simpa using h)]⟩

/-- LD Vx, [I]: V0 to Vx are loaded from I and I advances, or the range leaves memory. -/
theorem exec_ldLoad_cases (x : Reg) :
    (s.dataAddr + (x.val + 1) ≤ memSize ∧ exec (.ldLoad x) s =
      .next ((s.loadRegs (Memory.readAll s.params s.mem s.dataAddr (x.val + 1))).setI (indexPast s.i x))) ∨
    (memSize < s.dataAddr + (x.val + 1) ∧ exec (.ldLoad x) s = .next (s.raise .memRange)) := by
  rcases Nat.lt_or_ge memSize (s.dataAddr + (x.val + 1)) with h | h
  · exact .inr ⟨h, by simp [exec, execLdLoad, s.memRead_of_gt _ _ h]⟩
  · exact .inl ⟨h, by simp [exec, execLdLoad, s.memRead_eq _ _ h]⟩

/-- DRW: the rows at I are drawn at (Vx, Vy), or the range leaves memory. -/
theorem exec_drw_cases (x y : Reg) (n : Nat) :
    (s.dataAddr + n ≤ memSize ∧ exec (.drw x y n) s =
      .next (s.drawSprite (Memory.readAll s.params s.mem s.dataAddr n) (s.reg x) (s.reg y))) ∨
    (memSize < s.dataAddr + n ∧ exec (.drw x y n) s = .next (s.raise .memRange)) := by
  rcases Nat.lt_or_ge memSize (s.dataAddr + n) with h | h
  · exact .inr ⟨h, by simp [exec, execDrw, s.memRead_of_gt _ _ h]⟩
  · exact .inl ⟨h, by simp [exec, execDrw, s.memRead_eq _ _ h]⟩

/-- SKP: the skip on a held key, or Vx is no key. -/
theorem exec_skp_cases (x : Reg) :
    ((s.reg x).toNat ≤ 0xF ∧ exec (.skp x) s = .next (s.skipIf (s.kl.mask.getLsbD (s.reg x).toNat))) ∨
    (0xF < (s.reg x).toNat ∧ exec (.skp x) s = .next (s.raise .keyRange)) := by
  rcases Nat.lt_or_ge 0xF (s.reg x).toNat with h | h
  · exact .inr ⟨h, by simp [exec, execSkp, s.keyHeld_of_gt _ h]⟩
  · exact .inl ⟨h, by simp [exec, execSkp, s.keyHeld_of_le _ h]⟩

/-- SKNP: the skip on a key not held, or Vx is no key. -/
theorem exec_sknp_cases (x : Reg) :
    ((s.reg x).toNat ≤ 0xF ∧ exec (.sknp x) s = .next (s.skipIf (!s.kl.mask.getLsbD (s.reg x).toNat))) ∨
    (0xF < (s.reg x).toNat ∧ exec (.sknp x) s = .next (s.raise .keyRange)) := by
  rcases Nat.lt_or_ge 0xF (s.reg x).toNat with h | h
  · exact .inr ⟨h, by simp [exec, execSknp, s.keyHeld_of_gt _ h]⟩
  · exact .inl ⟨h, by simp [exec, execSknp, s.keyHeld_of_le _ h]⟩

/-! ### Every meaning -/

/-- What no meaning changes unless it faults: STATUS, the parameters, the latch, the ports and the outputs. -/
structure Untouched (s t : State) : Prop where
  status : t.status = s.status
  params : t.params = s.params
  kl : t.kl = s.kl
  inputs : t.inputs = s.inputs
  ports : t.ports = s.ports
  draws : t.draws = s.draws
  out : t.out = s.out

/-- Every meaning answers a next state: the state with a fault raised, or one with all of `Untouched` as it was. -/
theorem exec_cases (i : Instr) :
    (∃ reason, exec i s = .next (s.raise reason)) ∨ ∃ t, exec i s = .next t ∧ Untouched s t := by
  cases i with
  | ret =>
    rcases exec_ret_cases s with ⟨l, a, -, h⟩ | ⟨-, h⟩
    · exact .inr ⟨_, h, ⟨rfl, rfl, rfl, rfl, rfl, rfl, rfl⟩⟩
    · exact .inl ⟨_, h⟩
  | call nnn =>
    rcases exec_call_cases s nnn with ⟨-, h⟩ | ⟨-, h⟩
    · exact .inr ⟨_, h, ⟨rfl, rfl, rfl, rfl, rfl, rfl, rfl⟩⟩
    · exact .inl ⟨_, h⟩
  | ldB x =>
    rcases exec_ldB_cases s x with ⟨-, h⟩ | ⟨-, h⟩
    · exact .inr ⟨_, h, ⟨rfl, rfl, rfl, rfl, rfl, rfl, rfl⟩⟩
    · exact .inl ⟨_, h⟩
  | ldStore x =>
    rcases exec_ldStore_cases s x with ⟨-, h⟩ | ⟨-, h⟩
    · exact .inr ⟨_, h, ⟨rfl, rfl, rfl, rfl, rfl, rfl, rfl⟩⟩
    · exact .inl ⟨_, h⟩
  | ldLoad x =>
    rcases exec_ldLoad_cases s x with ⟨-, h⟩ | ⟨-, h⟩
    · exact .inr ⟨_, h, ⟨rfl, rfl, rfl, rfl, rfl, rfl, rfl⟩⟩
    · exact .inl ⟨_, h⟩
  | drw x y n =>
    rcases exec_drw_cases s x y n with ⟨-, h⟩ | ⟨-, h⟩
    · exact .inr ⟨_, h, ⟨rfl, rfl, rfl, rfl, rfl, rfl, rfl⟩⟩
    · exact .inl ⟨_, h⟩
  | skp x =>
    rcases exec_skp_cases s x with ⟨-, h⟩ | ⟨-, h⟩
    · exact .inr ⟨_, h, ⟨rfl, rfl, rfl, rfl, rfl, rfl, rfl⟩⟩
    · exact .inl ⟨_, h⟩
  | sknp x =>
    rcases exec_sknp_cases s x with ⟨-, h⟩ | ⟨-, h⟩
    · exact .inr ⟨_, h, ⟨rfl, rfl, rfl, rfl, rfl, rfl, rfl⟩⟩
    · exact .inl ⟨_, h⟩
  | _ => exact .inr ⟨_, rfl, ⟨rfl, rfl, rfl, rfl, rfl, rfl, rfl⟩⟩

end Sys2Proof.Machine
end

