-- ==== Sys2Proof/Laws/PerInstr.lean ====
section
/-! SUPPORT. What is said of each instruction as syntax: its encoding fixes the bits its row of the opcode map fixes. -/

namespace Sys2Proof.Laws.EncodeRow

/-- The encoding of the instruction lies in the instruction's row (30_encoding.md R55). -/
def Statement (i : Instr) : Prop := i.row.covers (encode i) = true

/-- A packed address word keeps its family nibble. -/
theorem packNNN_family (f : Nibble) (nnn : Addr12) : packNNN f nnn &&& 0xF000 = place f 12 := by
  ext i hi
  simp only [packNNN, place]
  interval_cases i <;> simp

/-- A packed register and byte keeps its family nibble. -/
theorem packXNN_family (f : Nibble) (x : Reg) (nn : Byte) : packXNN f x nn &&& 0xF000 = place f 12 := by
  ext i hi
  simp only [packXNN, place]
  interval_cases i <;> simp

/-- A packed register and byte keeps its family nibble and its low byte. -/
theorem packXNN_low (f : Nibble) (x : Reg) (nn : Byte) : packXNN f x nn &&& 0xF0FF = place f 12 ||| place nn 0 := by
  ext i hi
  simp only [packXNN, place]
  interval_cases i <;> simp

/-- A packed register pair keeps its family nibble. -/
theorem packXYN_family (f : Nibble) (x y : Reg) (n : Nibble) : packXYN f x y n &&& 0xF000 = place f 12 := by
  ext i hi
  simp only [packXYN, place]
  interval_cases i <;> simp

/-- A packed register pair keeps its family and its last nibble. -/
theorem packXYN_low (f : Nibble) (x y : Reg) (n : Nibble) : packXYN f x y n &&& 0xF00F = place f 12 ||| place n 0 := by
  ext i hi
  simp only [packXYN, place]
  interval_cases i <;> simp

theorem nop : Statement (.nop) := rfl
theorem cls : Statement (.cls) := rfl
theorem ret : Statement (.ret) := rfl
theorem jp (nnn : Addr12) : Statement (.jp nnn) := by
  simp only [Statement, OpcodeRow.covers, Instr.row, encode, packNNN_family]; rfl
theorem call (nnn : Addr12) : Statement (.call nnn) := by
  simp only [Statement, OpcodeRow.covers, Instr.row, encode, packNNN_family]; rfl
theorem seImm (x : Reg) (nn : Byte) : Statement (.seImm x nn) := by
  simp only [Statement, OpcodeRow.covers, Instr.row, encode, packXNN_family]; rfl
theorem sneImm (x : Reg) (nn : Byte) : Statement (.sneImm x nn) := by
  simp only [Statement, OpcodeRow.covers, Instr.row, encode, packXNN_family]; rfl
theorem seReg (x : Reg) (y : Reg) : Statement (.seReg x y) := by
  simp only [Statement, OpcodeRow.covers, Instr.row, encode, packXYN_low]; rfl
theorem ldImm (x : Reg) (nn : Byte) : Statement (.ldImm x nn) := by
  simp only [Statement, OpcodeRow.covers, Instr.row, encode, packXNN_family]; rfl
theorem addImm (x : Reg) (nn : Byte) : Statement (.addImm x nn) := by
  simp only [Statement, OpcodeRow.covers, Instr.row, encode, packXNN_family]; rfl
theorem ldReg (x : Reg) (y : Reg) : Statement (.ldReg x y) := by
  simp only [Statement, OpcodeRow.covers, Instr.row, encode, packXYN_low]; rfl
theorem orReg (x : Reg) (y : Reg) : Statement (.orReg x y) := by
  simp only [Statement, OpcodeRow.covers, Instr.row, encode, packXYN_low]; rfl
theorem andReg (x : Reg) (y : Reg) : Statement (.andReg x y) := by
  simp only [Statement, OpcodeRow.covers, Instr.row, encode, packXYN_low]; rfl
theorem xorReg (x : Reg) (y : Reg) : Statement (.xorReg x y) := by
  simp only [Statement, OpcodeRow.covers, Instr.row, encode, packXYN_low]; rfl
theorem addReg (x : Reg) (y : Reg) : Statement (.addReg x y) := by
  simp only [Statement, OpcodeRow.covers, Instr.row, encode, packXYN_low]; rfl
theorem sub (x : Reg) (y : Reg) : Statement (.sub x y) := by
  simp only [Statement, OpcodeRow.covers, Instr.row, encode, packXYN_low]; rfl
theorem shr (x : Reg) (y : Reg) : Statement (.shr x y) := by
  simp only [Statement, OpcodeRow.covers, Instr.row, encode, packXYN_low]; rfl
theorem subn (x : Reg) (y : Reg) : Statement (.subn x y) := by
  simp only [Statement, OpcodeRow.covers, Instr.row, encode, packXYN_low]; rfl
theorem shl (x : Reg) (y : Reg) : Statement (.shl x y) := by
  simp only [Statement, OpcodeRow.covers, Instr.row, encode, packXYN_low]; rfl
theorem sneReg (x : Reg) (y : Reg) : Statement (.sneReg x y) := by
  simp only [Statement, OpcodeRow.covers, Instr.row, encode, packXYN_low]; rfl
theorem ldI (nnn : Addr12) : Statement (.ldI nnn) := by
  simp only [Statement, OpcodeRow.covers, Instr.row, encode, packNNN_family]; rfl
theorem jpV0 (nnn : Addr12) : Statement (.jpV0 nnn) := by
  simp only [Statement, OpcodeRow.covers, Instr.row, encode, packNNN_family]; rfl
theorem rnd (x : Reg) (nn : Byte) : Statement (.rnd x nn) := by
  simp only [Statement, OpcodeRow.covers, Instr.row, encode, packXNN_family]; rfl
theorem drw (x : Reg) (y : Reg) (n : Nat) : Statement (.drw x y n) := by
  simp only [Statement, OpcodeRow.covers, Instr.row, encode, packXYN_family]; rfl
theorem skp (x : Reg) : Statement (.skp x) := by
  simp only [Statement, OpcodeRow.covers, Instr.row, encode, packXNN_low]; rfl
theorem sknp (x : Reg) : Statement (.sknp x) := by
  simp only [Statement, OpcodeRow.covers, Instr.row, encode, packXNN_low]; rfl
theorem ldVxDt (x : Reg) : Statement (.ldVxDt x) := by
  simp only [Statement, OpcodeRow.covers, Instr.row, encode, packXNN_low]; rfl
theorem ldVxK (x : Reg) : Statement (.ldVxK x) := by
  simp only [Statement, OpcodeRow.covers, Instr.row, encode, packXNN_low]; rfl
theorem ldDt (x : Reg) : Statement (.ldDt x) := by
  simp only [Statement, OpcodeRow.covers, Instr.row, encode, packXNN_low]; rfl
theorem ldSt (x : Reg) : Statement (.ldSt x) := by
  simp only [Statement, OpcodeRow.covers, Instr.row, encode, packXNN_low]; rfl
theorem addI (x : Reg) : Statement (.addI x) := by
  simp only [Statement, OpcodeRow.covers, Instr.row, encode, packXNN_low]; rfl
theorem ldF (x : Reg) : Statement (.ldF x) := by
  simp only [Statement, OpcodeRow.covers, Instr.row, encode, packXNN_low]; rfl
theorem ldB (x : Reg) : Statement (.ldB x) := by
  simp only [Statement, OpcodeRow.covers, Instr.row, encode, packXNN_low]; rfl
theorem ldStore (x : Reg) : Statement (.ldStore x) := by
  simp only [Statement, OpcodeRow.covers, Instr.row, encode, packXNN_low]; rfl
theorem ldLoad (x : Reg) : Statement (.ldLoad x) := by
  simp only [Statement, OpcodeRow.covers, Instr.row, encode, packXNN_low]; rfl

end Sys2Proof.Laws.EncodeRow
end

