-- ==== Sys2Proof/Tests/Slice0.lean ====
section
/-! SUPPORT. The model's own tests. Expected results come from spec/ (95_test_vectors.md, named in each docstring, or the
rule named there), and each statement of Obligations.lean with hypotheses has a witness that meets them. -/

namespace Sys2Proof.Tests

open Sys2Proof.Machine

/-! ## Small states -/

/-- The inputs of 95_test_vectors.md's conventions: no tick, no key, RND = 0. -/
def quiet : StepInput := { keys := Keys.none, tick := false, rnd := 0 }

/-- The state of the conventions with the word `w` at 0x200, PC there, and quiet inputs. -/
def start (w : Word) : State := { State.reset with inputs := [quiet] }.placeWord w

/-- The state of the conventions with the word `w` at `pc`. -/
def startAt (pc w : Word) : State := ({ State.reset with inputs := [quiet] }.setPc pc).placeWord w

/-- The same state with other inputs for its next step. -/
def feed (s : State) (input : StepInput) : State := { s with inputs := [input] }

/-- The same state with one byte of memory written. -/
def poke (s : State) (a : Nat) (b : Byte) : State := s.setMem (Memory.write s.params s.mem a b)

/-- The same state with one cell set in a clear framebuffer. -/
def lit (s : State) (x : Column) (y : Row) : State := s.setFb (fbFlip fbClear x y)

/-- The state an outcome carries, or the one given. -/
def nextOr (s : State) : Outcome → State
  | .next t => t
  | .fault _ | .refused _ => s

/-- The state after one step. -/
def after (s : State) : State := nextOr s (step s)

/-! ## Well-formedness -/

theorem test_sprite_of_fifteen_rows_is_well_formed : (Instr.drw 1 2 15).WellFormed := by decide

theorem test_sprite_of_sixteen_rows_is_refused : ¬ (Instr.drw 0 0 16).WellFormed := by decide

theorem test_stack_of_depth_zero_is_refused : ¬ Params.WellFormed { stackDepth := 0, font := defaultFont } := by decide

/-- L1.2. -/
theorem test_rom_of_3584_bytes_fits : RomFits (List.replicate 3584 0xFF) := by
  rw [RomFits, List.length_replicate]; decide

/-- L1.2. -/
theorem test_rom_of_3585_bytes_is_refused : ¬ RomFits (List.replicate 3585 0xFF) := by
  rw [RomFits, List.length_replicate]; decide

/-! ## Decoding: words written out from the patterns of 30_encoding.md R55 -/

theorem test_decode_family_0 :
    decode 0b0000000000000000 = .ok .nop ∧ decode 0b0000000011100000 = .ok .cls ∧
    decode 0b0000000011101110 = .ok .ret := by decide

theorem test_decode_addresses :
    decode 0b0001001101000101 = .ok (.jp 0x345) ∧ decode 0b0010011010111100 = .ok (.call 0x6BC) ∧
    decode 0b1010111000000001 = .ok (.ldI 0xE01) ∧ decode 0b1011111111111111 = .ok (.jpV0 0xFFF) := by decide

theorem test_decode_bytes :
    decode 0b0011001101000010 = .ok (.seImm 3 0x42) ∧ decode 0b0100111100000001 = .ok (.sneImm 15 0x01) ∧
    decode 0b0110000100000101 = .ok (.ldImm 1 0x05) ∧ decode 0b0111000011111111 = .ok (.addImm 0 0xFF) ∧
    decode 0b1100100010100101 = .ok (.rnd 8 0xA5) := by decide

theorem test_decode_registers :
    decode 0b0101000100100000 = .ok (.seReg 1 2) ∧ decode 0b1001111000110000 = .ok (.sneReg 14 3) ∧
    decode 0b1000000100100000 = .ok (.ldReg 1 2) ∧ decode 0b1000000100100001 = .ok (.orReg 1 2) ∧
    decode 0b1000000100100010 = .ok (.andReg 1 2) ∧ decode 0b1000000100100011 = .ok (.xorReg 1 2) := by decide

theorem test_decode_arithmetic :
    decode 0b1000111100100100 = .ok (.addReg 15 2) ∧ decode 0b1000000111110101 = .ok (.sub 1 15) ∧
    decode 0b1000000100100110 = .ok (.shr 1 2) ∧ decode 0b1000000100100111 = .ok (.subn 1 2) ∧
    decode 0b1000000100101110 = .ok (.shl 1 2) := by decide

theorem test_decode_sprite_and_keys :
    decode 0b1101000100100101 = .ok (.drw 1 2 5) ∧ decode 0b1110000110011110 = .ok (.skp 1) ∧
    decode 0b1110100010100001 = .ok (.sknp 8) := by decide

theorem test_decode_family_F :
    decode 0b1111001000000111 = .ok (.ldVxDt 2) ∧ decode 0b1111001000001010 = .ok (.ldVxK 2) ∧
    decode 0b1111001000010101 = .ok (.ldDt 2) ∧ decode 0b1111001000011000 = .ok (.ldSt 2) ∧
    decode 0b1111001000011110 = .ok (.addI 2) ∧ decode 0b1111001000101001 = .ok (.ldF 2) ∧
    decode 0b1111001000110011 = .ok (.ldB 2) ∧ decode 0b1111001001010101 = .ok (.ldStore 2) ∧
    decode 0b1111001001100101 = .ok (.ldLoad 2) := by decide

/-- The unknown words of L2.1's decode table. -/
theorem test_unknown_words :
    ([0x00E1, 0x0123, 0x0FFF, 0x00FF, 0x5121, 0x512F, 0x8128, 0x8129, 0x812A, 0x812B, 0x812C, 0x812D, 0x812F,
      0x9121, 0xE100, 0xE19F, 0xF100, 0xF108, 0xF130, 0xF1FF] : List Word).all
      (fun op => decide (decode op = .error (.unknown op))) = true := by decide

/-- L1.1. -/
theorem test_fields :
    fieldOp 0xD123 = 0xD ∧ fieldX 0xD123 = 1 ∧ fieldY 0xD123 = 2 ∧ fieldN 0xD123 = 3 ∧ fieldNN 0xD123 = 0x23 ∧
    fieldNNN 0xD123 = 0x123 := by decide

/-- The masks and matches of R55, in its order. -/
theorem test_opcode_map :
    (opcodeMap.take 12).map (fun r => (r.mask, r.value)) =
      [(0xFFFF, 0x0000), (0xFFFF, 0x00E0), (0xFFFF, 0x00EE), (0xF000, 0x1000), (0xF000, 0x2000), (0xF000, 0x3000),
       (0xF000, 0x4000), (0xF00F, 0x5000), (0xF000, 0x6000), (0xF000, 0x7000), (0xF00F, 0x8000), (0xF00F, 0x8001)] ∧
    ((opcodeMap.drop 12).take 12).map (fun r => (r.mask, r.value)) =
      [(0xF00F, 0x8002), (0xF00F, 0x8003), (0xF00F, 0x8004), (0xF00F, 0x8005), (0xF00F, 0x8006), (0xF00F, 0x8007),
       (0xF00F, 0x800E), (0xF00F, 0x9000), (0xF000, 0xA000), (0xF000, 0xB000), (0xF000, 0xC000), (0xF000, 0xD000)] ∧
    (opcodeMap.drop 24).map (fun r => (r.mask, r.value)) =
      [(0xF0FF, 0xE09E), (0xF0FF, 0xE0A1), (0xF0FF, 0xF007), (0xF0FF, 0xF00A), (0xF0FF, 0xF015), (0xF0FF, 0xF018),
       (0xF0FF, 0xF01E), (0xF0FF, 0xF029), (0xF0FF, 0xF033), (0xF0FF, 0xF055), (0xF0FF, 0xF065)] := by decide

/-- R62. -/
theorem test_diagnostic_text : diagnosticText 0x00E0 = "00E0" ∧ diagnosticText 0xD1AF = "D1AF" := by decide

/-- R60: an instruction is exactly two bytes, the first the more significant (20_memory.md R41). -/
theorem test_decode_bytes_of_memory :
    decodeBytes [0x61, 0x05, 0x12] = .ok (.ldImm 1 5, [0x12]) ∧ decodeBytes [0x61] = .error .truncated := by decide

/-! ## Reset -/

/-- L1.3. -/
theorem test_reset_registers :
    (State.reset.pc, State.reset.i, State.reset.stack, State.reset.dt, State.reset.st) = (0x200, 0, [], 0, 0) ∧
    (∀ r, State.reset.reg r = 0) ∧ State.reset.status = .running := by decide

/-- 20_memory.md R37, R38: the font, then zeros. -/
theorem test_reset_memory :
    (List.range 6).map State.reset.readByte = [0xF0, 0x90, 0x90, 0x90, 0xF0, 0x20] ∧
    State.reset.readByte 0x04F = 0x80 ∧ State.reset.readByte 0x050 = 0 ∧ State.reset.readByte 0x200 = 0 := by decide

/-- L2.7.6: a ROM of one byte. -/
theorem test_construct_one_byte :
    ∃ s, State.construct Params.default [0x12] = .ok s ∧ s.readByte 0x200 = 0x12 ∧ s.readByte 0x201 = 0 :=
  ⟨_, rfl, by decide, by decide⟩

/-- L1.2: no block exists after `RomTooBig`. -/
theorem test_construct_rom_too_big :
    State.construct Params.default (List.replicate 3585 0) = .error .romTooBig :=
  if_neg (by rw [RomFits, List.length_replicate]; decide)

/-! ## The cycle (L2.1) -/

/-- L2.1.1 and L2.1.4: the tick comes before BEEP is read. -/
theorem test_tick :
    (fun t : State => (t.dt, t.st, t.pc, t.out)) (after (feed (((start 0x0000).setDt 5).setSt 2) { quiet with tick := true })) =
      (4, 1, 0x202, some (.ok none true)) ∧
    (fun t : State => (t.st, t.out)) (after (feed ((start 0x0000).setSt 1) { quiet with tick := true })) =
      (0, some (.ok none false)) := by decide

/-- L2.1.2 and L2.1.3: a timer stops at zero, and does not move without a tick. -/
theorem test_no_tick :
    (fun t : State => (t.dt, t.st)) (after (feed (start 0x0000) { quiet with tick := true })) = (0, 0) ∧
    (fun t : State => (t.dt, t.st)) (after (((start 0x0000).setDt 5).setSt 2)) = (5, 2) := by decide

/-- L2.1.5: the last word of memory is fetched. -/
theorem test_last_word : (after (startAt 0xFFE 0x0000)).pc = 0x1000 := by decide

/-- L2.1.6 to L2.1.8. -/
theorem test_no_more_instructions :
    (fun t : State => (t.out, t.dt, t.pc)) (after (feed ((startAt 0xFFF 0).setDt 3) { quiet with tick := true })) =
      (some .noMoreInstructions, 2, 0xFFF) ∧
    (after (startAt 0x1000 0)).out = some .noMoreInstructions ∧
    (after (startAt 0x10FE 0)).out = some .noMoreInstructions := by decide

/-- L2.1.9: an odd PC. -/
theorem test_odd_pc : (fun t : State => (t.reg 1, t.pc)) (after (startAt 0x201 0x6105)) = (5, 0x203) := by decide

/-- L2.1.10: an unknown word; the latch and the increment stand. -/
theorem test_unknown_instruction :
    (fun t : State => (t.out, t.pc, t.kl, t.status))
      (after (feed (start 0x5121) { quiet with keys := { mask := 1, last := some 0 } })) =
      (some (.unknownInstruction 0x5121 0x202), 0x202, { mask := 1, last := some 0 }, .running) := by decide

/-- L2.1.11 and L2.7.4: a Faulted block reports its fault, whatever its PC. -/
theorem test_faulted_block : step { startAt 0xFFF 0 with status := .faulted .memRange } = .fault .memRange := rfl

/-! ## Control flow (L2.2) -/

/-- L2.2.1. -/
theorem test_nop : (fun t : State => (t.pc, t.v)) (after (start 0x0000)) = (0x202, (start 0x0000).v) := by decide

/-- L2.2.4. -/
theorem test_ret :
    (fun t : State => (t.pc, t.stack)) (after ((start 0x00EE).setStack [0x202, 0x40A])) = (0x40A, [0x202]) := by decide

/-- L2.2.3. -/
theorem test_ret_underflow : (after (start 0x00EE)).status = .faulted .stackUnderflow := by decide

/-- L2.2.5. -/
theorem test_jp : (after (start 0x1345)).pc = 0x345 := by decide

/-- L2.2.8. -/
theorem test_call : (fun t : State => (t.pc, t.stack)) (after (start 0x2300)) = (0x300, [0x202]) := by decide

/-- L2.2.9 and L2.2.10. -/
theorem test_call_overflow :
    (after ((start 0x2300).setStack (List.replicate 16 0x202))).status = .faulted .stackOverflow ∧
    (after ((start 0x2300).setStack (List.replicate 15 0x202))).stack.length = 16 := by decide

/-- L2.2.11 and L2.2.12. -/
theorem test_seImm :
    (after ((start 0x3342).setReg 3 0x42)).pc = 0x204 ∧ (after ((start 0x3343).setReg 3 0x42)).pc = 0x202 := by decide

/-- L2.2.24: a skip past the end of memory. -/
theorem test_skip_past_memory : (after (startAt 0xFFE 0x3000)).pc = 0x1002 := by decide

/-- L2.2.13 and L2.2.14. -/
theorem test_sneImm :
    (after ((start 0x4342).setReg 3 0x42)).pc = 0x202 ∧ (after ((start 0x4300).setReg 3 0x42)).pc = 0x204 := by decide

/-- L2.2.15 and L2.2.16. -/
theorem test_seReg :
    (after (((start 0x5120).setReg 1 7).setReg 2 7)).pc = 0x204 ∧
    (after (((start 0x5120).setReg 1 7).setReg 2 8)).pc = 0x202 := by decide

/-- L2.2.18 and L2.2.19. -/
theorem test_sneReg :
    (after (((start 0x9120).setReg 1 7).setReg 2 8)).pc = 0x204 ∧ (after (start 0x9110)).pc = 0x202 := by decide

/-- L2.2.22. -/
theorem test_jpV0_not_masked : (after ((start 0xBFFF).setReg 0 0xFF)).pc = 0x10FE := by decide

/-- L2.2.23: V0, not V5. -/
theorem test_jpV0_reads_v0 : (after (((start 0xB500).setReg 0 1).setReg 5 0x80)).pc = 0x501 := by decide

/-! ## Registers and ALU (L2.3) -/

/-- L2.3.1. -/
theorem test_ldImm : (after (start 0x6105)).reg 1 = 0x05 := by decide

/-- L2.3.3. -/
theorem test_addImm_wraps : (fun t : State => (t.reg 1, t.reg vf)) (after ((start 0x7102).setReg 1 0xFF)) = (1, 0) := by
  decide

/-- L2.3.6. -/
theorem test_ldReg : (after ((start 0x8120).setReg 2 0x33)).reg 1 = 0x33 := by decide

/-- L2.3.7. -/
theorem test_orReg :
    (fun t : State => (t.reg 1, t.reg vf)) (after ((((start 0x8121).setReg 1 0x0F).setReg 2 0xF0).setReg vf 5)) =
      (0xFF, 0) := by decide

/-- L2.3.12: the OR reads the old VF. -/
theorem test_orReg_reads_flag :
    (fun t : State => (t.reg 1, t.reg vf)) (after ((start 0x81F1).setReg vf 0x81)) = (0x81, 0) := by decide

/-- L2.3.8. -/
theorem test_andReg :
    (fun t : State => (t.reg 1, t.reg vf)) (after ((((start 0x8122).setReg 1 0x3C).setReg 2 0x0F).setReg vf 7)) =
      (0x0C, 0) := by decide

/-- L2.3.9. -/
theorem test_xorReg :
    (fun t : State => (t.reg 1, t.reg vf)) (after (((start 0x8123).setReg 1 0x3C).setReg 2 0x0F)) = (0x33, 0) := by decide

/-- L2.3.13. -/
theorem test_addReg_carries :
    (fun t : State => (t.reg 1, t.reg vf)) (after (((start 0x8124).setReg 1 0xFF).setReg 2 1)) = (0, 1) := by decide

/-- L2.3.16: the carry wins over the sum. -/
theorem test_addReg_to_flag : (after (((start 0x8F24).setReg vf 0xFF).setReg 2 1)).reg vf = 1 := by decide

/-- L2.3.19 and L2.3.21. -/
theorem test_sub :
    (fun t : State => (t.reg 1, t.reg vf)) (after (((start 0x8125).setReg 1 1).setReg 2 2)) = (0xFF, 0) ∧
    (fun t : State => (t.reg 1, t.reg vf)) (after (((start 0x8125).setReg 1 7).setReg 2 7)) = (0, 1) := by decide

/-- L2.3.22: the flag wins over the difference. -/
theorem test_sub_to_flag : (after (((start 0x8F25).setReg vf 3).setReg 2 8)).reg vf = 0 := by decide

/-- L2.3.23 and L2.3.24. -/
theorem test_subn :
    (fun t : State => (t.reg 1, t.reg vf)) (after (((start 0x8127).setReg 1 5).setReg 2 3)) = (0xFE, 0) ∧
    (fun t : State => (t.reg 1, t.reg vf)) (after (((start 0x8127).setReg 1 3).setReg 2 5)) = (2, 1) := by decide

/-- L2.3.26: Vy is shifted, the flag is the old Vx's. -/
theorem test_shr :
    (fun t : State => (t.reg 1, t.reg vf)) (after (((start 0x8126).setReg 1 5).setReg 2 0x0C)) = (6, 1) := by decide

/-- L2.3.29: the shifted value is written last. -/
theorem test_shr_to_flag : (after (((start 0x8F26).setReg vf 3).setReg 2 8)).reg vf = 4 := by decide

/-- L2.3.31. -/
theorem test_shl :
    (fun t : State => (t.reg 1, t.reg vf)) (after (((start 0x812E).setReg 1 0x81).setReg 2 0x41)) = (0x82, 1) := by decide

/-- L2.3.34. -/
theorem test_shl_to_flag : (after (((start 0x8F2E).setReg vf 0x80).setReg 2 1)).reg vf = 2 := by decide

/-- L2.3.35. -/
theorem test_rnd : (after (feed (start 0xC10F) { quiet with rnd := 0xA5 })).reg 1 = 5 := by decide

/-! ## Index register and memory (L2.4) -/

/-- L2.4.2. -/
theorem test_ldI : (after (start 0xAFFF)).i = 0xFFF := by decide

/-- L2.4.5. -/
theorem test_addI_wraps : (after (((start 0xF11E).setI 0xFFFF).setReg 1 1)).i = 0 := by decide

/-- L2.4.6: no flag. -/
theorem test_addI_keeps_flag :
    (fun t : State => (t.i, t.reg vf)) (after (((start 0xFF1E).setI 0x0FFF).setReg vf 1)) = (0x1000, 1) := by decide

/-- L2.4.7 and L2.4.10. -/
theorem test_ldF :
    (after ((start 0xF129).setReg 1 0x0A)).i = 0x032 ∧ (after ((start 0xF129).setReg 1 0xFF)).i = 0x4FB := by decide

/-- L2.4.11. -/
theorem test_ldB :
    (fun t : State => ([0x300, 0x301, 0x302].map t.readByte, t.i)) (after (((start 0xF033).setReg 0 0xFE).setI 0x300)) =
      ([2, 5, 4], 0x300) := by decide

/-- L2.4.16 and L2.4.17. -/
theorem test_ldB_at_end :
    [0xFFD, 0xFFE, 0xFFF].map (after (((start 0xF033).setReg 0 0x7B).setI 0xFFD)).readByte = [1, 2, 3] ∧
    (after ((start 0xF033).setI 0xFFE)).status = .faulted .memRange := by decide

/-- L2.4.18. -/
theorem test_ldStore :
    (fun t : State => ([0x300, 0x301, 0x302, 0x303].map t.readByte, t.i))
      (after (((((start 0xF255).setReg 0 1).setReg 1 2).setReg 2 3).setI 0x300)) = ([1, 2, 3, 0], 0x303) := by decide

/-- L2.4.19 and L2.4.20. -/
theorem test_ldStore_at_end :
    (fun t : State => (t.readByte 0xFFF, t.i)) (after (((start 0xF055).setReg 0 0x5A).setI 0xFFF)) = (0x5A, 0x1000) ∧
    (after ((start 0xF155).setI 0xFFF)).status = .faulted .memRange := by decide

/-- L2.4.28 and L2.4.25: the font read back, and a register above x kept. -/
theorem test_ldLoad :
    (fun t : State => ([0, 1, 2, 3, 4].map t.reg, t.i)) (after (start 0xF465)) = ([0xF0, 0x90, 0x90, 0x90, 0xF0], 5) ∧
    (fun t : State => (t.reg 0, t.reg 3, t.i)) (after (poke (((start 0xF065).setReg 3 0x77).setI 0x300) 0x300 1)) =
      (1, 0x77, 0x301) := by decide

/-- L2.4.26 and L2.4.27. -/
theorem test_ldLoad_at_end :
    (after ((start 0xFF65).setI 0xFF0)).i = 0x1000 ∧
    (after ((start 0xFF65).setI 0xFF1)).status = .faulted .memRange := by decide

/-! ## Display (L2.5) -/

/-- L1.4. -/
theorem test_cls :
    (fun t : State => (fbCell t.fb 63 31, t.out.map StepOutput.redraw)) (after (lit (start 0x00E0) 63 31)) =
      (false, some (some true)) := by decide

/-- L2.5.5 and L2.5.9: clipped at the right edge, the start wrapped; a collision at the corner. -/
theorem test_drw_clips :
    (fun t : State => ((t.fb[0]).toList, t.reg vf))
        (after (poke (((start 0xD121).setI 0x300).setReg 1 0x7C) 0x300 0xFF)) =
      (List.replicate 60 false ++ List.replicate 4 true, 0) ∧
    (fun t : State => (fbCell t.fb 62 31, fbCell t.fb 63 31, t.reg vf))
        (after (poke ((((lit (start 0xD121) 63 31).setI 0x300).setReg 1 60).setReg 2 31) 0x300 0xFF)) =
      (true, false, 1) := by decide

/-- L2.5.12 to L2.5.15: the range check. -/
theorem test_drw_range :
    fbCell (after (poke ((start 0xD121).setI 0xFFF) 0xFFF 0x80)).fb 0 0 = true ∧
    (after ((start 0xD122).setI 0xFFF)).status = .faulted .memRange ∧
    (after ((start 0xD120).setI 0x1000)).status = .running ∧
    (after ((start 0xD120).setI 0x1001)).status = .faulted .memRange := by decide

/-! ## Keys, timers and sound (L2.6) -/

/-- L2.6.6 and L2.6.5: key F is bit 15, and only the mask is tested. -/
theorem test_skp :
    (after (feed ((start 0xE19E).setReg 1 0x0F) { quiet with keys := { mask := 0x8000, last := none } })).pc = 0x204 ∧
    (after (feed ((start 0xE19E).setReg 1 3) { quiet with keys := { mask := 0, last := some 3 } })).pc = 0x202 := by decide

/-- L2.6.7. -/
theorem test_skp_no_such_key : (after ((start 0xE19E).setReg 1 0x10)).status = .faulted .keyRange := by decide

/-- L2.6.3 and L2.6.4. -/
theorem test_sknp :
    (after ((start 0xE1A1).setReg 1 3)).pc = 0x204 ∧
    (after (feed ((start 0xE1A1).setReg 1 3) { quiet with keys := { mask := 0xFFFF, last := none } })).pc = 0x202 := by
  decide

/-- L2.6.8. -/
theorem test_sknp_no_such_key : (after ((start 0xE1A1).setReg 1 0xFF)).status = .faulted .keyRange := by decide

/-- L2.6.10. -/
theorem test_ldVxK_pressed :
    (fun t : State => (t.reg 0, t.pc)) (after (feed (start 0xF00A) { quiet with keys := { mask := 0, last := some 7 } })) =
      (7, 0x202) := by decide

/-- L2.6.12: the timers run while it waits. -/
theorem test_ldVxK_waits :
    (fun t : State => (t.dt, t.pc)) (after (feed ((start 0xF00A).setDt 5) { quiet with tick := true })) = (4, 0x200) := by
  decide

/-- L2.6.13 and L2.6.14: the tick comes first. -/
theorem test_ldVxDt :
    (after ((start 0xF307).setDt 0x20)).reg 3 = 0x20 ∧
    (after (feed ((start 0xF307).setDt 1) { quiet with tick := true })).reg 3 = 0 := by decide

/-- L2.6.15 and L2.6.19: set after the tick. -/
theorem test_ldDt :
    (after (feed ((start 0xF015).setReg 0 3) { quiet with tick := true })).dt = 3 ∧
    (fun t : State => (t.dt, t.st, t.out)) (after (feed ((start 0xF015).setSt 3) { quiet with tick := true })) =
      (0, 2, some (.ok none true)) := by decide

/-- L2.6.16 and L2.6.18. -/
theorem test_ldSt :
    (fun t : State => (t.st, t.out)) (after ((start 0xF018).setReg 0 1)) = (1, some (.ok none true)) ∧
    (fun t : State => (t.st, t.out)) (after ((start 0xF018).setSt 5)) = (0, some (.ok none false)) := by decide

/-- 45_keys_timers.md R115: the driver's operations on a Keys value. -/
theorem test_keys_value :
    Keys.press Keys.none 10 = { mask := 0x0400, last := some 10 } ∧
    Keys.release (Keys.press Keys.none 10) 10 = { mask := 0, last := some 10 } ∧
    (Keys.press Keys.none 10).pressed 10 = true ∧ (Keys.press Keys.none 10).resetLast = { mask := 0x0400, last := none } := by
  decide

/-! ## Witnesses: for each statement with hypotheses, inputs that meet them, at a boundary where there is one -/

/-- The next step's fetch of the word `op` from a Running state: the hypotheses the statements about a step share. -/
abbrev Fetches (s : State) (op : Word) : Prop :=
  s.status = .running ∧ s.pc.toNat + 2 ≤ 0x1000 ∧
    op.toNat = (s.readByte s.pc.toNat).toNat * 256 + (s.readByte (s.pc.toNat + 1)).toNat

theorem witness_decodeAfterEncode : (Instr.drw 15 15 15).WellFormed ∧ encode (.drw 15 15 15) = 0xDFFF := by decide

theorem witness_encodeAfterDecode :
    decode 0xDFFF = .ok (.drw 15 15 15) ∧ decode 0xFF65 = .ok (.ldLoad 15) ∧ decode 0x00EE = .ok .ret := by decide

theorem witness_decodeFollowsOpcodeMap :
    Instr.row (.ldLoad 0) ∈ opcodeMap ∧ (Instr.row (.ldLoad 0)).covers 0xFF65 = true ∧
    ∀ r ∈ opcodeMap, r.covers 0x00EF = false := by decide

/-- A format's clauses of `Encoded…`: an opcode of each format, at the top of its fields. -/
theorem witness_encoded :
    bits 0x1FFF 15 12 = 0x1 ∧ bits 0x3FFF 15 12 = 0x3 ∧ (bits 0x5FF0 15 12 = 0x5 ∧ bits 0x5FF0 3 0 = 0x0) ∧
    (bits 0xFF65 15 12 = 0xF ∧ bits 0xFF65 7 0 = 0x65) ∧ bits 0xDFFF 15 12 = 0xD := by decide

theorem witness_stepRunsDecodedInstruction :
    Fetches (startAt 0xFFE 0x6105) 0x6105 ∧ decode 0x6105 = .ok (.ldImm 1 5) := by decide

theorem witness_phasesBeforeExecute : (startAt 0xFFE 0).pc.toNat + 2 ≤ 0x1000 := by decide

theorem witness_fetchPastMemoryEndsRun :
    (startAt 0xFFE 0).pc.toNat + 2 ≤ 0x1000 ∧ (startAt 0xFFF 0).status = .running ∧ 0xFFF ≤ (startAt 0xFFF 0).pc.toNat := by
  decide

theorem witness_unknownOpcodeIsReported :
    Fetches (start 0x00EF) 0x00EF ∧ ∀ r ∈ opcodeMap, r.covers 0x00EF = false := by decide

theorem witness_okStepOutputs :
    Fetches (start 0x00E0) 0x00E0 ∧ decode 0x00E0 = .ok .cls ∧
    exec .cls (start 0x00E0).sampleInputs.timerPhase.latchPhase =
      .next ((start 0x00E0).sampleInputs.timerPhase.latchPhase.setFb fbClear) ∧
    (start 0x00E0).sampleInputs.timerPhase.latchPhase.status = .running := ⟨by decide, by decide, rfl, rfl⟩

/-- A step that fails at its fetch, one that fails at its decode and one that ends Faulted. -/
theorem witness_failedStepOutputs :
    (step (startAt 0xFFF 0) = .next (after (startAt 0xFFF 0)) ∧ 0xFFF ≤ (startAt 0xFFF 0).pc.toNat) ∧
    (step (startAt 0xFFE 0x00EF) = .next (after (startAt 0xFFE 0x00EF)) ∧ Fetches (startAt 0xFFE 0x00EF) 0x00EF ∧
      decode 0x00EF = .error (.unknown 0x00EF)) ∧
    step (startAt 0xFFE 0x00EE) = .next (after (startAt 0xFFE 0x00EE)) ∧
    (after (startAt 0xFFE 0x00EE)).status = .faulted .stackUnderflow :=
  ⟨⟨rfl, by decide⟩, ⟨rfl, by decide, by decide⟩, rfl, by decide⟩

theorem witness_faultLastsForEver :
    (start 0x00EE).status = .running ∧ step (start 0x00EE) = .next (after (start 0x00EE)) ∧
    (after (start 0x00EE)).status = .faulted .stackUnderflow := ⟨rfl, rfl, by decide⟩

theorem witness_placedWordIsRun :
    Memory.wf (startAt 0xFFE 0).params (startAt 0xFFE 0).mem ∧ (startAt 0xFFE 0).status = .running ∧
    (startAt 0xFFE 0).pc.toNat + 2 ≤ 0x1000 ∧ decodeTableWord 16 0x6105 = some (.ldImm 1 5) := by decide

theorem witness_nopStepOnlyAdvances :
    (startAt 0xFFE 0).status = .running ∧ (startAt 0xFFE 0).pc.toNat + 2 ≤ 0x1000 ∧
    (startAt 0xFFE 0).readByte 0xFFE = 0 ∧ (startAt 0xFFE 0).readByte 0xFFF = 0 ∧
    (startAt 0xFFE 0).nextInput.tick = false := by decide

theorem witness_retPopsReturnAddress :
    (State.reset.setStack [0x202, 0x40A]).stack = [0x202] ++ [0x40A] ∧ State.reset.stack = [] := by decide

theorem witness_callPushesReturnAddress :
    (State.reset.setStack (List.replicate 15 0x202)).stack.length < State.reset.params.stackDepth ∧
    (State.reset.setStack (List.replicate 16 0x202)).stack.length = State.reset.params.stackDepth := by decide

theorem witness_retUndoesCall :
    State.reset.stack.length < State.reset.params.stackDepth ∧
    exec (.call 0x300) State.reset = .next ((State.reset.setStack [0x200]).setPc 0x300) ∧
    (State.reset.setStack [0x200]).stack = ((State.reset.setStack [0x200]).setPc 0x300).stack := ⟨by decide, rfl, rfl⟩

theorem witness_immediateSkips :
    (State.reset.setReg 3 0x42).reg 3 = 0x42 ∧ (State.reset.setReg 3 0x42).reg 3 ≠ 0x43 := by decide

theorem witness_registerSkips :
    State.reset.reg 1 = State.reset.reg 2 ∧ (State.reset.setReg 1 7).reg 1 ≠ (State.reset.setReg 1 7).reg 2 ∧
    (bits 0x5FFF 15 12 = 0x5 ∧ bits 0x9001 15 12 = 0x9 ∧ bits 0x5FFF 3 0 ≠ 0 ∧ bits 0x9001 3 0 ≠ 0) := by decide

theorem witness_clsClearsScreen :
    (startAt 0xFFE 0x00E0).status = .running ∧ (startAt 0xFFE 0x00E0).pc.toNat + 2 ≤ 0x1000 ∧
    (startAt 0xFFE 0x00E0).readByte 0xFFE = 0x00 ∧ (startAt 0xFFE 0x00E0).readByte 0xFFF = 0xE0 := by decide

/-- One step of each of the three instructions. -/
theorem witness_timerMoves :
    (Fetches (startAt 0xFFE 0xFF07) 0xFF07 ∧ decode 0xFF07 = .ok (.ldVxDt 15)) ∧
    (Fetches (startAt 0xFFE 0xF015) 0xF015 ∧ decode 0xF015 = .ok (.ldDt 0)) ∧
    Fetches (startAt 0xFFE 0xF018) 0xF018 ∧ decode 0xF018 = .ok (.ldSt 0) := by decide

theorem witness_flagAndDestination : (14 : Reg) ≠ vf ∧ (0 : Reg) ≠ 14 ∧ (0 : Reg) ≠ vf := by decide

theorem witness_onlyRndReadsRandomByte :
    State.reset.status = .running ∧ (∀ x nn, Instr.nop ≠ .rnd x nn) ∧ exec .nop State.reset = .next State.reset :=
  ⟨rfl, fun _ _ h => (nomatch h), rfl⟩

theorem witness_bcdStoresDigits :
    Memory.wf State.reset.params State.reset.mem ∧ (State.reset.setI 0xFFD).dataAddr + 3 ≤ 0x1000 ∧
    0x1000 < (State.reset.setI 0xFFE).dataAddr + 3 := by decide

theorem witness_storeAndLoad :
    Memory.wf State.reset.params State.reset.mem ∧ (State.reset.setI 0xFF0).dataAddr + (15 : Reg).val + 1 ≤ 0x1000 ∧
    0x1000 < (State.reset.setI 0xFF1).dataAddr + (15 : Reg).val + 1 := by decide

/-- `Fx55` run at I = 0x300, with x = 1. -/
theorem witness_storeLoadRoundTrip_and_fetchSeesStore :
    Memory.wf State.reset.params State.reset.mem ∧ (State.reset.setI 0x300).dataAddr + (1 : Reg).val + 1 ≤ 0x1000 ∧
    1 ≤ (1 : Reg).val ∧
    exec (.ldStore 1) (State.reset.setI 0x300) =
      .next (nextOr State.reset (exec (.ldStore 1) (State.reset.setI 0x300))) ∧
    ((nextOr State.reset (exec (.ldStore 1) (State.reset.setI 0x300))).setI 0x300).i = (State.reset.setI 0x300).i :=
  ⟨by decide, by decide, by decide, rfl, rfl⟩

theorem witness_memoryPrimitives :
    0x1000 + 0 ≤ 0x1000 ∧ 0x1000 < 0xFFF + 2 ∧ Memory.wf State.reset.params State.reset.mem ∧
    0xFFE + [0x12, 0x34].length ≤ 0x1000 ∧ 0x1000 < 0xFFF + [0x12, 0x34].length := by decide

/-- A clear cell the sprite has a 1 bit at, in the corner. -/
theorem witness_drawTwiceRestores :
    fbCell fbClear 63 31 = false ∧ spriteCovers [0xFF] 60 31 63 31 = true := by decide

/-- No rows at 0x1000 are inside memory, two rows at 0xFFF are not. -/
theorem witness_drwDrawsMemory :
    (State.reset.setI 0x1000).dataAddr + 0 ≤ 0x1000 ∧ (State.reset.setI 0xFF1).dataAddr + 15 ≤ 0x1000 ∧
    0x1000 < (State.reset.setI 0xFFF).dataAddr + 2 := by decide

theorem witness_keySkips :
    ((State.reset.setReg 1 0xF).reg 1).toNat ≤ 0xF ∧ 0xF < ((State.reset.setReg 1 0x10).reg 1).toNat := by decide

theorem witness_waitKeyTakesLastPressed :
    (State.reset.setKl (Keys.none.press 15)).kl.last = some 15 ∧ State.reset.kl.last = none := by decide

theorem witness_waitingStepKeepsPc :
    Fetches (startAt 0xFFE 0xF00A) 0xF00A ∧ decode 0xF00A = .ok (.ldVxK 0) ∧
    (startAt 0xFFE 0xF00A).nextInput.keys.last = none := by decide

/-- Each fault is raised by some instruction, so no case of `EachInstructionsOneFault` is empty. -/
theorem witness_eachInstructionsOneFault :
    State.reset.status = .running ∧ exec .ret State.reset = .next (State.reset.raise .stackUnderflow) ∧
    exec (.call 0) (State.reset.setStack (List.replicate 16 0)) =
      .next ((State.reset.setStack (List.replicate 16 0)).raise .stackOverflow) ∧
    exec (.ldB 0) (State.reset.setI 0xFFE) = .next ((State.reset.setI 0xFFE).raise .memRange) ∧
    exec (.skp 0) (State.reset.setReg 0 0x10) = .next ((State.reset.setReg 0 0x10).raise .keyRange) ∧
    ∀ reason, (State.reset.raise reason).status = .faulted reason := ⟨rfl, rfl, rfl, rfl, rfl, fun _ => rfl⟩

/-- An instruction that changes memory, one that changes the framebuffer and one that changes the call stack. -/
theorem witness_writersOfMemoryScreenAndStack :
    (∃ t, exec (.ldStore 0) ((State.reset.setI 0x300).setReg 0 1) = .next t ∧ t.status = .running ∧
      t.mem ≠ State.reset.mem) ∧
    (∃ t, exec .cls (lit State.reset 63 31) = .next t ∧ t.status = .running ∧ t.fb ≠ (lit State.reset 63 31).fb) ∧
    ∃ t, exec (.call 0x300) State.reset = .next t ∧ t.status = .running ∧ t.stack ≠ State.reset.stack :=
  ⟨⟨_, rfl, by decide, by decide⟩, ⟨_, rfl, rfl, fun h => absurd (congrArg (fbCell · 63 31) h) (by decide)⟩,
    ⟨_, rfl, by decide, by decide⟩⟩

theorem witness_writersOfFlag :
    ∃ t, exec (.addReg 1 1) (State.reset.setReg 1 0x80) = .next t ∧ t.status = .running ∧
      t.reg vf ≠ (State.reset.setReg 1 0x80).reg vf := ⟨_, rfl, by decide, by decide⟩

theorem witness_writersOfIndexAndTimers :
    (∃ t, exec (.ldI 0x300) State.reset = .next t ∧ t.status = .running ∧ t.i ≠ State.reset.i) ∧
    (∃ t, exec (.ldDt 0) (State.reset.setReg 0 1) = .next t ∧ t.status = .running ∧ t.dt ≠ State.reset.dt) ∧
    ∃ t, exec (.ldSt 0) (State.reset.setReg 0 1) = .next t ∧ t.status = .running ∧ t.st ≠ State.reset.st :=
  ⟨⟨_, rfl, by decide, by decide⟩, ⟨_, rfl, by decide, by decide⟩, ⟨_, rfl, by decide, by decide⟩⟩

theorem witness_readersOfKeyLatch :
    State.reset.status = .running ∧ (∀ x, Instr.nop ≠ .skp x ∧ Instr.nop ≠ .sknp x ∧ Instr.nop ≠ .ldVxK x) ∧
    exec .nop State.reset = .next State.reset :=
  ⟨rfl, fun _ => ⟨fun h => (nomatch h), fun h => (nomatch h), fun h => (nomatch h)⟩, rfl⟩

theorem witness_noInstructionReadsSoundTimer :
    State.reset.status = .running ∧ exec .nop State.reset = .next State.reset ∧ (∀ x, Instr.nop ≠ .ldSt x) ∧
    exec (.ldSt 0) State.reset = .next (State.reset.setSt 0) :=
  ⟨rfl, rfl, fun _ h => (nomatch h), rfl⟩

/-- ROMs of 3584 and of 3585 bytes. -/
theorem witness_constructFromRom :
    (List.replicate 3584 (0 : Byte)).length ≤ 3584 ∧ 3584 < (List.replicate 3585 (0 : Byte)).length := by
  rw [List.length_replicate, List.length_replicate]; decide

/-- A state with an empty call stack meets the invariant when its parameters, memory and PC do. -/
theorem inv_of_empty_stack {s : State} (hp : s.params.WellFormed) (hm : Memory.wf s.params s.mem)
    (hpc : s.pc.toNat ≤ 0x10FE) (hs : s.stack = []) : s.Inv :=
  ⟨hp, hm, fun _ => hpc, fun _ => by simp [hs], fun _ a ha => by simp [hs] at ha⟩

theorem witness_stepKeepsInvariant :
    (startAt 0xFFE 0x3000).Inv ∧ step (startAt 0xFFE 0x3000) = .next (after (startAt 0xFFE 0x3000)) :=
  ⟨inv_of_empty_stack (by decide) (by decide) (by decide) rfl, rfl⟩

theorem witness_constructionMeetsInvariant :
    Params.WellFormed { stackDepth := 1, font := defaultFont } ∧
    ∃ s, State.construct { stackDepth := 1, font := defaultFont } [0x12] = .ok s := ⟨by decide, _, rfl⟩

/-- A skip at the last word, and a waiting `Fx0A` there. -/
theorem witness_pcNeverWraps :
    ((startAt 0xFFE 0x3000).Inv ∧ (startAt 0xFFE 0x3000).sampleInputs.timerPhase.fetch = some 0x3000 ∧
      decode 0x3000 = .ok (.seImm 0 0) ∧
      ∃ t, exec (.seImm 0 0) (startAt 0xFFE 0x3000).sampleInputs.timerPhase.latchPhase = .next t ∧
        t.status = .running ∧ t.pc = (startAt 0xFFE 0x3000).sampleInputs.timerPhase.latchPhase.pc + 2) ∧
    (startAt 0xFFE 0xF00A).Inv ∧ (startAt 0xFFE 0xF00A).sampleInputs.timerPhase.fetch = some 0xF00A ∧
      decode 0xF00A = .ok (.ldVxK 0) ∧
      ∃ t, exec (.ldVxK 0) (startAt 0xFFE 0xF00A).sampleInputs.timerPhase.latchPhase = .next t ∧
        t.status = .running ∧ t.pc = (startAt 0xFFE 0xF00A).sampleInputs.timerPhase.latchPhase.pc - 2 :=
  ⟨⟨inv_of_empty_stack (by decide) (by decide) (by decide) rfl, by decide, by decide, _, rfl, by decide, by decide⟩,
    inv_of_empty_stack (by decide) (by decide) (by decide) rfl, by decide, by decide, _, rfl, by decide, by decide⟩

end Sys2Proof.Tests
end

/-! ## Proofs: the decoder

One fact ties the decoder to the encoder for every word, and three say how a fact about the decoder's fields gives the
`Encoded…` forms the statements use. -/

namespace Sys2Proof

section

variable {op : Word} {i : Instr}

/-! ### A word whose fields are known is the packed word of its format -/

theorem packNNN_eq {f : Nibble} (hf : (fieldOp op).toNat = f.toNat) : packNNN f (fieldNNN op) = op := by
  rw [← BitVec.eq_of_toNat_eq hf, packNNN_fields]

theorem packXNN_eq {f : Nibble} {nn : Byte} (hf : (fieldOp op).toNat = f.toNat)
    (hnn : (fieldNN op).toNat = nn.toNat) : packXNN f (fieldX op) nn = op := by
  rw [← BitVec.eq_of_toNat_eq hf, ← BitVec.eq_of_toNat_eq hnn, packXNN_fields]

theorem packXYN_eq {f n : Nibble} (hf : (fieldOp op).toNat = f.toNat) (hn : (fieldN op).toNat = n.toNat) :
    packXYN f (fieldX op) (fieldY op) n = op := by
  rw [← BitVec.eq_of_toNat_eq hf, ← BitVec.eq_of_toNat_eq hn, packXYN_fields]

/-! ### Encoding what was decoded, family by family -/

theorem encode_of_decode0 (h : decode0 op = .ok i) : encode i = op := by
  unfold decode0 at h
  split at h
  · next hop => cases h; exact hop.symm
  split at h
  · next hop => cases h; exact hop.symm
  split at h
  · next hop => cases h; exact hop.symm
  · cases h

theorem encode_of_decode8 (hf : (fieldOp op).toNat = 0x8) (h : decode8 op = .ok i) : encode i = op := by
  unfold decode8 at h
  split at h <;> cases h <;> exact packXYN_eq hf ‹(fieldN op).toNat = _›

theorem encode_of_decodeE (hf : (fieldOp op).toNat = 0xE) (h : decodeE op = .ok i) : encode i = op := by
  unfold decodeE at h
  split at h <;> cases h <;> exact packXNN_eq hf ‹(fieldNN op).toNat = _›

theorem encode_of_decodeF (hf : (fieldOp op).toNat = 0xF) (h : decodeF op = .ok i) : encode i = op := by
  unfold decodeF at h
  split at h <;> cases h <;> exact packXNN_eq hf ‹(fieldNN op).toNat = _›

/-- A word that decodes is the encoding of what it decodes to: no bit of it is ignored (30_encoding.md R56). -/
theorem encode_of_decode (h : decode op = .ok i) : encode i = op := by
  unfold decode at h
  split at h
  · exact encode_of_decode0 h
  · next hf => cases h; exact packNNN_eq hf
  · next hf => cases h; exact packNNN_eq hf
  · next hf => cases h; exact packXNN_eq hf rfl
  · next hf => cases h; exact packXNN_eq hf rfl
  · next hf =>
    split at h <;> cases h
    next hn => exact packXYN_eq hf (congrArg BitVec.toNat hn)
  · next hf => cases h; exact packXNN_eq hf rfl
  · next hf => cases h; exact packXNN_eq hf rfl
  · next hf => exact encode_of_decode8 hf h
  · next hf =>
    split at h <;> cases h
    next hn => exact packXYN_eq hf (congrArg BitVec.toNat hn)
  · next hf => cases h; exact packNNN_eq hf
  · next hf => cases h; exact packNNN_eq hf
  · next hf => cases h; exact packXNN_eq hf rfl
  · next hf => cases h; exact packXYN_eq hf (by simp)
  · next hf => exact encode_of_decodeE hf h
  · simp only [imp_false] at *
    have := (fieldOp op).isLt
    exact encode_of_decodeF (by omega) h

/-! ### The families whose last nibble must be 0 -/

theorem decode_of_family5 (hf : (fieldOp op).toNat = 0x5) :
    decode op = if fieldN op = 0 then .ok (.seReg (fieldX op) (fieldY op)) else .error (.unknown op) := by
  simp only [decode, hf]

theorem decode_of_family9 (hf : (fieldOp op).toNat = 0x9) :
    decode op = if fieldN op = 0 then .ok (.sneReg (fieldX op) (fieldY op)) else .error (.unknown op) := by
  simp only [decode, hf]

end

end Sys2Proof

namespace Sys2Proof.Machine

/-! ### The decoder's fields as the bits the statements speak of -/

theorem fieldOp_toNat_eq_bits (op : Word) : (fieldOp op).toNat = bits op 15 12 := fieldOp_toNat op

theorem fieldN_toNat_eq_bits (op : Word) : (fieldN op).toNat = bits op 3 0 := by
  rw [fieldN_toNat]; simp [bits]

theorem fieldNN_toNat_eq_bits (op : Word) : (fieldNN op).toNat = bits op 7 0 := by
  rw [fieldNN_toNat]; simp [bits]

theorem fieldNNN_toNat_eq_bits (op : Word) : (fieldNNN op).toNat = bits op 11 0 := by
  rw [fieldNNN_toNat]; simp [bits]

theorem fieldN_eq_zero_iff (op : Word) : fieldN op = 0 ↔ bits op 3 0 = 0 := by
  rw [← fieldN_toNat_eq_bits]
  exact BitVec.toNat_inj.symm

/-- An instruction that its encoding decodes to is the meaning of no other word. -/
theorem encodedExactly_encode {i : Instr} (h : decode (encode i) = .ok i) : EncodedExactly (encode i) i :=
  fun _ => ⟨fun hop => (encode_of_decode hop).symm, fun hop => hop ▸ h⟩

theorem encodedNNN_of_decode {f : Nat} {mk : Addr12 → Instr}
    (h : ∀ op, (fieldOp op).toNat = f → decode op = .ok (mk (fieldNNN op))) : EncodedNNN f mk :=
  fun op hf => ⟨_, h op ((fieldOp_toNat_eq_bits op).trans hf), fieldNNN_toNat_eq_bits op⟩

theorem encodedXNN_of_decode {f : Nat} {mk : Reg → Byte → Instr}
    (h : ∀ op, (fieldOp op).toNat = f → decode op = .ok (mk (fieldX op) (fieldNN op))) : EncodedXNN f mk :=
  fun op hf => ⟨_, _, h op ((fieldOp_toNat_eq_bits op).trans hf), fieldX_val op, fieldNN_toNat_eq_bits op⟩

theorem encodedXY_of_decode {f l : Nat} {mk : Reg → Reg → Instr}
    (h : ∀ op, (fieldOp op).toNat = f → (fieldN op).toNat = l → decode op = .ok (mk (fieldX op) (fieldY op))) :
    EncodedXY f l mk :=
  fun op hf hl => ⟨_, _, h op ((fieldOp_toNat_eq_bits op).trans hf) ((fieldN_toNat_eq_bits op).trans hl),
    fieldX_val op, fieldY_val op⟩

/-! ## Proofs: steps and skips -/

@[simp] theorem tickDown_false (t : Byte) : tickDown false t = t := by
  rw [tickDown]
  split
  · next h => exact h.symm
  · rfl

theorem zext16_toNat (nnn : Addr12) : (zext16 nnn).toNat = nnn.toNat :=
  BitVec.toNat_setWidth_of_le (by decide)

/-- A step whose instruction raises no fault ends in the state its meaning answers, with the `Ok` outputs. -/
theorem step_of_exec (s : State) {op : Word} {i : Instr} {t : State} (hs : s.status = .running)
    (hf : s.fetch = some op) (hd : decode op = .ok i)
    (he : exec i s.sampleInputs.timerPhase.latchPhase = .next t) (ht : t.status = .running) :
    step s = .next (t.setOut (.ok (if reportsRedraw i then some (screenCopy t.fb) else none) t.beep)) := by
  rw [step_of_decode s op i hs hf hd, he, finish, t.outputPhase_of_running i ht]

theorem SameButPc.of_setPc (s : State) (a : Word) : SameButPc s (s.setPc a) := rfl

theorem SameButPc.of_skipIf (s : State) (c : Bool) : SameButPc s (s.skipIf c) := rfl

@[simp] theorem State.skipIf_pc (s : State) (c : Bool) : (s.skipIf c).pc = if c then s.pc + 2 else s.pc := rfl

/-- A meaning that skips when two bytes are equal. -/
theorem exec_skips_of_beq {i : Instr} {s : State} {a b : Byte} (he : exec i s = .next (s.skipIf (a == b))) :
    ∃ t, exec i s = .next t ∧ SameButPc s t ∧ (a = b → t.pc = s.pc + 2) ∧ (a ≠ b → t.pc = s.pc) :=
  ⟨_, he, .of_skipIf s _, fun h => by simp [h], fun h => by simp [h]⟩

/-- A meaning that skips when two bytes differ. -/
theorem exec_skips_of_bne {i : Instr} {s : State} {a b : Byte} (he : exec i s = .next (s.skipIf (a != b))) :
    ∃ t, exec i s = .next t ∧ SameButPc s t ∧ (a ≠ b → t.pc = s.pc + 2) ∧ (a = b → t.pc = s.pc) :=
  ⟨_, he, .of_skipIf s _, fun h => by simp [h], fun h => by simp [h]⟩

/-! ## Proofs: control flow (41_control_flow.md) -/

/-- Settles O14: the step is the sampled, ticked and latched state with the `Ok` outputs. -/
theorem nopStepOnlyAdvances : Obligations.NopStepOnlyAdvances := by
  refine ⟨encodedExactly_encode rfl, fun s => rfl, fun s hs hpc hhi hlo => ?_⟩
  have hf : s.fetch = some 0x0000 := s.fetch_eq _ hpc (by simp [hhi, hlo])
  refine ⟨_, step_of_exec s hs hf (i := .nop) rfl rfl hs, ⟨_, _, rfl⟩, pc_add_two s.pc hpc, hs, rfl, rfl, rfl, rfl,
    rfl, rfl, fun htick => ?_⟩
  simp [htick]

/-- Settles O16: JP writes PC alone, and a 12-bit address zero-extended is that address. -/
theorem jpSetsPc : Obligations.JpSetsPc :=
  ⟨encodedNNN_of_decode fun op hf => by simp only [decode, hf],
    fun nnn s => ⟨_, rfl, zext16_toNat nnn, .of_setPc s _⟩⟩

/-- Settles O19: both meanings are `State.skipIf`, on `Vx == nn` and on `Vx != nn`. -/
theorem immediateSkips : Obligations.ImmediateSkips :=
  ⟨encodedXNN_of_decode fun op hf => by simp only [decode, hf],
    encodedXNN_of_decode fun op hf => by simp only [decode, hf],
    fun _ _ _ => ⟨exec_skips_of_beq rfl, exec_skips_of_bne rfl⟩⟩

/-- Settles O20: as O19 with two registers, and the decoder tests the last nibble. -/
theorem registerSkips : Obligations.RegisterSkips := by
  refine ⟨encodedXY_of_decode fun op hf hn => ?_, encodedXY_of_decode fun op hf hn => ?_, fun op hf hn => ?_,
    fun _ _ _ => ⟨exec_skips_of_beq rfl, exec_skips_of_bne rfl⟩⟩
  · rw [decode_of_family5 hf, if_pos (BitVec.eq_of_toNat_eq hn)]
  · rw [decode_of_family9 hf, if_pos (BitVec.eq_of_toNat_eq hn)]
  · have hn' : fieldN op ≠ 0 := mt (fieldN_eq_zero_iff op).mp hn
    rw [← fieldOp_toNat_eq_bits] at hf
    rcases hf with hf | hf
    · rw [decode_of_family5 hf, if_neg hn']
    · rw [decode_of_family9 hf, if_neg hn']

end Sys2Proof.Machine

/-! ## Proofs: registers and ALU (42_alu.md)

Two lemmas say what a meaning that ends in `State.setReg`, or in `State.setRegThenFlag`, leaves in the registers and
elsewhere; the arithmetic is one equation on naturals per operation. -/

namespace Sys2Proof.Machine

/-! ### The `8` family -/

theorem decode_of_family8 {op : Word} (hf : (fieldOp op).toNat = 0x8) : decode op = decode8 op := by
  simp only [decode, hf]

theorem encodedXY_of_decode8 {l : Nat} {mk : Reg → Reg → Instr}
    (h : ∀ op, (fieldN op).toNat = l → decode8 op = .ok (mk (fieldX op) (fieldY op))) : EncodedXY 0x8 l mk :=
  encodedXY_of_decode fun op hf hn => (decode_of_family8 hf).trans (h op hn)

/-! ### The byte operations, on naturals -/

@[simp] theorem flagByte_toNat (c : Bool) : (flagByte c).toNat = if c then 1 else 0 := by
  cases c <;> rfl

@[simp] theorem sumByte_toNat (a b : Byte) : (sumByte a b).toNat = (a.toNat + b.toNat) % 256 :=
  BitVec.toNat_ofNat _ _

@[simp] theorem diffByte_toNat (a b : Byte) : (diffByte a b).toNat = (a.toNat + 256 - b.toNat) % 256 :=
  BitVec.toNat_ofNat _ _

theorem flagByte_carry_toNat (a b : Byte) :
    (flagByte (carry a b)).toNat = if a.toNat + b.toNat > 255 then 1 else 0 := by
  simp [carry]

theorem flagByte_notBorrow_toNat (a b : Byte) :
    (flagByte (notBorrow a b)).toNat = if a.toNat ≥ b.toNat then 1 else 0 := by
  simp [notBorrow]

section

variable {i : Instr} {s : State} {x : Reg}

/-! ### A register written, and a register and then the flag -/

theorem SameButV.of_setReg (s : State) (r : Reg) (b : Byte) : SameButV s (s.setReg r b) := rfl

theorem SameButV.of_setRegThenFlag (s : State) (x : Reg) (b f : Byte) : SameButV s (s.setRegThenFlag x b f) := rfl

@[simp] theorem State.setRegThenFlag_reg_vf (s : State) (x : Reg) (b f : Byte) :
    (s.setRegThenFlag x b f).reg vf = f :=
  State.reg_setReg_self _ vf f

theorem State.setRegThenFlag_reg_of_ne_vf (s : State) {q : Reg} (x : Reg) (b f : Byte) (hq : q ≠ vf) :
    (s.setRegThenFlag x b f).reg q = (s.setReg x b).reg q :=
  State.reg_setReg_of_ne _ vf q f hq

/-- A meaning that writes one register. -/
theorem exec_writes_reg {b : Byte} (he : exec i s = .next (s.setReg x b)) :
    ∃ t, exec i s = .next t ∧ t.reg x = b ∧ (∀ r, r ≠ x → t.reg r = s.reg r) ∧ SameButV s t :=
  ⟨_, he, s.reg_setReg_self x b, fun r => s.reg_setReg_of_ne x r b, .of_setReg s x b⟩

/-- A meaning that writes a result and then the flag: the flag wins when x = F (40_cycle.md R73). -/
theorem exec_writes_reg_then_flag {b f : Byte} (he : exec i s = .next (s.setRegThenFlag x b f)) :
    ∃ t, exec i s = .next t ∧ SameButV s t ∧ (x ≠ vf → t.reg x = b) ∧ t.reg vf = f ∧
      ∀ r, r ≠ x → r ≠ vf → t.reg r = s.reg r := by
  refine ⟨_, he, .of_setRegThenFlag s x b f, fun hx => ?_, s.setRegThenFlag_reg_vf x b f, fun r hrx hrf => ?_⟩
  · rw [s.setRegThenFlag_reg_of_ne_vf x b f hx, s.reg_setReg_self]
  · rw [s.setRegThenFlag_reg_of_ne_vf x b f hrf, s.reg_setReg_of_ne x r b hrx]

/-- A meaning that combines two bytes bit by bit and clears the flag. -/
theorem exec_combines_bits {g : Bool → Bool → Bool} {a b c : Byte}
    (he : exec i s = .next (s.setRegThenFlag x c 0)) (hc : ∀ k, c.getLsbD k = g (a.getLsbD k) (b.getLsbD k)) :
    ∃ t, exec i s = .next t ∧ t.reg vf = 0 ∧ SameButV s t ∧
      (x ≠ vf → ∀ k, (t.reg x).getLsbD k = g (a.getLsbD k) (b.getLsbD k)) ∧
      ∀ r, r ≠ x → r ≠ vf → t.reg r = s.reg r := by
  obtain ⟨t, ht, hsame, hx, hvf, hother⟩ := exec_writes_reg_then_flag he
  exact ⟨t, ht, hvf, hsame, fun hne k => by rw [hx hne, hc k], hother⟩

/-- A meaning that subtracts one byte from another and sets the flag to NOT borrow. -/
theorem exec_subtracts {a b : Byte}
    (he : exec i s = .next (s.setRegThenFlag x (diffByte a b) (flagByte (notBorrow a b)))) :
    ∃ t, exec i s = .next t ∧ SameButV s t ∧ (x ≠ vf → (t.reg x).toNat = (a.toNat + 256 - b.toNat) % 256) ∧
      (t.reg vf).toNat = (if a.toNat ≥ b.toNat then 1 else 0) ∧ ∀ r, r ≠ x → r ≠ vf → t.reg r = s.reg r := by
  obtain ⟨t, ht, hsame, hx, hvf, hother⟩ := exec_writes_reg_then_flag he
  exact ⟨t, ht, hsame, fun hne => by rw [hx hne, diffByte_toNat], by rw [hvf, flagByte_notBorrow_toNat], hother⟩

end

/-! ### The statements -/

/-- Settles O22: the three meanings write one register, the sum being `sumByte`. -/
theorem loadsAndImmediateAdd : Obligations.LoadsAndImmediateAdd := by
  refine ⟨encodedXNN_of_decode fun op hf => by simp only [decode, hf],
    encodedXNN_of_decode fun op hf => by simp only [decode, hf],
    encodedXY_of_decode8 fun op hn => by simp only [decode8, hn],
    fun x nn s => ⟨exec_writes_reg rfl, ?_⟩, fun x y s => exec_writes_reg rfl⟩
  obtain ⟨t, ht, hx, hother, hsame⟩ := exec_writes_reg (i := .addImm x nn) (s := s) rfl
  exact ⟨t, ht, by rw [hx, sumByte_toNat], hother, hsame⟩

/-- Settles O23: the three meanings combine the old operands bit by bit and write the flag last. -/
theorem logicClearsFlag : Obligations.LogicClearsFlag :=
  ⟨encodedXY_of_decode8 fun op hn => by simp only [decode8, hn],
    encodedXY_of_decode8 fun op hn => by simp only [decode8, hn],
    encodedXY_of_decode8 fun op hn => by simp only [decode8, hn],
    fun _ _ _ => ⟨exec_combines_bits rfl fun _ => BitVec.getLsbD_or, exec_combines_bits rfl fun _ => BitVec.getLsbD_and,
      exec_combines_bits rfl fun _ => BitVec.getLsbD_xor⟩⟩

/-- Settles O24: the sum and its carry are of the old operands, and the carry is written last. -/
theorem addSetsCarry : Obligations.AddSetsCarry := by
  refine ⟨encodedXY_of_decode8 fun op hn => by simp only [decode8, hn], fun x y s => ?_⟩
  obtain ⟨t, ht, hsame, hx, hvf, hother⟩ := exec_writes_reg_then_flag (i := .addReg x y) (s := s) rfl
  exact ⟨t, ht, hsame, fun hne => by rw [hx hne, sumByte_toNat], by rw [hvf, flagByte_carry_toNat], hother⟩

/-- Settles O25: both meanings are one subtraction, with the operands in either order. -/
theorem subtractSetsNotBorrow : Obligations.SubtractSetsNotBorrow :=
  ⟨encodedXY_of_decode8 fun op hn => by simp only [decode8, hn],
    encodedXY_of_decode8 fun op hn => by simp only [decode8, hn],
    fun _ _ _ => ⟨exec_subtracts rfl, exec_subtracts rfl⟩⟩

end Sys2Proof.Machine

/-! ## Proofs: the index register and memory (43_index_memory.md)

A word of the `F` family decodes by its low byte, and a meaning that ends in `State.setI` changes I alone. -/

namespace Sys2Proof.Machine

/-! ### The `F` family -/

theorem encodedX_of_decode {f l : Nat} {mk : Reg → Instr}
    (h : ∀ op, (fieldOp op).toNat = f → (fieldNN op).toNat = l → decode op = .ok (mk (fieldX op))) :
    EncodedX f l mk :=
  fun op hf hl => ⟨_, h op ((fieldOp_toNat_eq_bits op).trans hf) ((fieldNN_toNat_eq_bits op).trans hl), fieldX_val op⟩

theorem decode_of_familyF {op : Word} (hf : (fieldOp op).toNat = 0xF) : decode op = decodeF op := by
  simp only [decode, hf]

theorem encodedX_of_decodeF {l : Nat} {mk : Reg → Instr}
    (h : ∀ op, (fieldNN op).toNat = l → decodeF op = .ok (mk (fieldX op))) : EncodedX 0xF l mk :=
  encodedX_of_decode fun op hf hl => (decode_of_familyF hf).trans (h op hl)

/-! ### I written -/

/-- The glyph address is exact: 5 times a byte is at most 1275 (43_index_memory.md R104). -/
@[simp] theorem glyphAddr_toNat (d : Byte) : (glyphAddr d).toNat = 5 * d.toNat := by
  have hd := d.isLt
  exact (BitVec.toNat_ofNat _ _).trans (Nat.mod_eq_of_lt (by omega))

theorem SameButI.of_setI (s : State) (a : Word) : SameButI s (s.setI a) := rfl

/-- A meaning that writes I alone. -/
theorem exec_writes_i {i : Instr} {s : State} {a : Word} (he : exec i s = .next (s.setI a)) :
    ∃ t, exec i s = .next t ∧ t.i.toNat = a.toNat ∧ SameButI s t :=
  ⟨_, he, rfl, .of_setI s a⟩

/-! ### The statements -/

/-- Settles O29: both meanings write I alone, and neither the zero-extension nor the product loses a bit. -/
theorem indexLoads : Obligations.IndexLoads :=
  ⟨encodedNNN_of_decode fun op hf => by simp only [decode, hf],
    encodedX_of_decodeF fun op hnn => by simp only [decodeF, hnn],
    fun nnn _ => zext16_toNat nnn ▸ exec_writes_i rfl,
    fun x s => glyphAddr_toNat (s.reg x) ▸ exec_writes_i rfl⟩

end Sys2Proof.Machine

/-! ## Proofs: display (44_display.md) -/

namespace Sys2Proof.Machine

/-- CLS writes FB alone (44_display.md R113). -/
theorem exec_cls (s : State) : exec .cls s = .next (s.setFb fbClear) := rfl

/-- A step that fetches CLS ends in the sampled, ticked and latched state with FB cleared, and FB_OUT is the clear
screen (40_cycle.md R74). -/
theorem step_of_fetch_cls (s : State) (hs : s.status = .running) (hf : s.fetch = some 0x00E0) :
    step s = .next ((s.sampleInputs.timerPhase.latchPhase.setFb fbClear).setOut
      (.ok (some (screenCopy fbClear)) s.sampleInputs.timerPhase.latchPhase.beep)) :=
  step_of_exec s hs hf (i := .cls) rfl (exec_cls _) hs

/-- Settles O39: CLS answers `fbClear`, whose cells are unset, and FB_OUT is the copy of it. -/
theorem clsClearsScreen : Obligations.ClsClearsScreen := by
  refine ⟨encodedExactly_encode rfl, fun s => ⟨_, exec_cls s, rfl, fbCell_fbClear⟩, fun s hs hpc hhi hlo => ?_⟩
  have hf : s.fetch = some 0x00E0 := s.fetch_eq _ hpc (by simp [hhi, hlo])
  refine ⟨_, _, _, step_of_fetch_cls s hs hf, rfl, fun x y => ?_⟩
  rw [pixel_screenCopy, fbCell_fbClear]

end Sys2Proof.Machine

/-! ## Proofs: keys and timers (45_keys_timers.md)

The three timer moves raise no fault, so a whole step of each ends in its meaning's answer from the sampled, ticked and
latched state. -/

namespace Sys2Proof.Machine

/-! ### The meanings -/

theorem exec_ldVxDt (x : Reg) (s : State) : exec (.ldVxDt x) s = .next (s.setReg x s.dt) := rfl

theorem exec_ldDt (x : Reg) (s : State) : exec (.ldDt x) s = .next (s.setDt (s.reg x)) := rfl

theorem exec_ldSt (x : Reg) (s : State) : exec (.ldSt x) s = .next (s.setSt (s.reg x)) := rfl

/-! ### The step around them -/

/-- BEEP is ST > 0 (40_cycle.md R74). -/
theorem State.beep_eq_true_iff (s : State) : s.beep = true ↔ 0 < s.st.toNat :=
  decide_eq_true_iff

/-- The DT an execute phase finds is the one its step's tick left (40_cycle.md R68). -/
theorem State.dt_toNat_before_execute (s : State) :
    s.sampleInputs.timerPhase.latchPhase.dt.toNat = s.dt.toNat - (if s.nextInput.tick then 1 else 0) :=
  tickDown_toNat s.nextInput.tick s.dt

/-! ### The statements -/

/-- Settles O44: each meaning writes one component. In a whole step it runs after the tick, and no later phase writes
V, DT or ST; BEEP is read from the ST that `Fx18` left. -/
theorem timerMoves : Obligations.TimerMoves := by
  refine ⟨encodedX_of_decodeF fun op hnn => by simp only [decodeF, hnn],
    encodedX_of_decodeF fun op hnn => by simp only [decodeF, hnn],
    encodedX_of_decodeF fun op hnn => by simp only [decodeF, hnn],
    fun x s => ⟨exec_writes_reg (exec_ldVxDt x s), ⟨_, exec_ldDt x s, rfl, rfl⟩, ⟨_, exec_ldSt x s, rfl, rfl⟩,
      fun op hs hpc hop => ?_⟩⟩
  have hf : s.fetch = some op := s.fetch_eq op hpc hop
  refine ⟨fun hd => ⟨_, step_of_exec s hs hf hd (exec_ldVxDt x _) hs, ?_⟩,
    fun hd => ⟨_, step_of_exec s hs hf hd (exec_ldDt x _) hs, rfl⟩,
    fun hd => ⟨_, _, step_of_exec s hs hf hd (exec_ldSt x _) hs, rfl, rfl, State.beep_eq_true_iff _⟩⟩
  rw [State.setOut_reg, State.reg_setReg_self, s.dt_toNat_before_execute]

end Sys2Proof.Machine

/-! ## Proofs: decoding and encoding (30_encoding.md)

The encoder puts fields where the decoder reads them, so decoding undoes encoding. With `encode_of_decode` this makes
the rows of the opcode map and the decoder two readings of one table. -/

namespace Sys2Proof

section

variable {op : Word} {i : Instr}

/-! ### Decoding an encoding -/

/-- Every word of the `D` family is DRW, and its row count is its last nibble. -/
theorem decode_packXYN_drw (x y : Reg) (n : Nibble) : decode (packXYN 0xD x y n) = .ok (.drw x y n.toNat) := by
  simp [decode, fieldOp_packXYN, fieldX_packXYN, fieldY_packXYN, fieldN_packXYN]

/-- Decoding undoes encoding, with every operand at every value (30_encoding.md R54, R55). -/
theorem decode_encode (h : i.WellFormed) : decode (encode i) = .ok i := by
  cases i with
  | nop | cls | ret => rfl
  | jp nnn | call nnn | ldI nnn | jpV0 nnn => simp [encode, decode, fieldOp_packNNN, fieldNNN_packNNN]
  | seImm x nn | sneImm x nn | ldImm x nn | addImm x nn | rnd x nn =>
    simp [encode, decode, fieldOp_packXNN, fieldX_packXNN, fieldNN_packXNN]
  | skp x | sknp x =>
    simp [encode, decode, decodeE, fieldOp_packXNN, fieldX_packXNN, fieldNN_packXNN]
  | ldVxDt x | ldVxK x | ldDt x | ldSt x | addI x | ldF x | ldB x | ldStore x | ldLoad x =>
    simp [encode, decode, decodeF, fieldOp_packXNN, fieldX_packXNN, fieldNN_packXNN]
  | seReg x y | sneReg x y =>
    simp [encode, decode, fieldOp_packXYN, fieldX_packXYN, fieldY_packXYN, fieldN_packXYN]
  | ldReg x y | orReg x y | andReg x y | xorReg x y | addReg x y | sub x y | shr x y | subn x y | shl x y =>
    simp [encode, decode, decode8, fieldOp_packXYN, fieldX_packXYN, fieldY_packXYN, fieldN_packXYN]
  | drw x y n =>
    have hn : (BitVec.ofNat 4 n).toNat = n := Nat.mod_eq_of_lt (Nat.lt_succ_of_le h)
    rw [encode, decode_packXYN_drw, hn]

/-- What decodes is well-formed: the row count of DRW is read from a nibble. -/
theorem wellFormed_of_decode (h : decode op = .ok i) : i.WellFormed := by
  cases i with
  | drw x y n =>
    have hdrw : decode op = .ok (.drw x y (BitVec.ofNat 4 n).toNat) :=
      encode_of_decode h ▸ decode_packXYN_drw x y (BitVec.ofNat 4 n)
    have hn : (BitVec.ofNat 4 n).toNat = n := by
      rw [h] at hdrw
      injection hdrw with hdrw
      injection hdrw with _ _ hn
      exact hn.symm
    exact Nat.le_of_lt_succ (hn ▸ (BitVec.ofNat 4 n).isLt)
  | _ => exact Nat.zero_le _

/-! ### The rows of the opcode map -/

/-- Each encoding lies in its instruction's row. -/
theorem row_covers_encode (i : Instr) : i.row.covers (encode i) = true := by
  cases i with
  | nop => exact Laws.EncodeRow.nop
  | cls => exact Laws.EncodeRow.cls
  | ret => exact Laws.EncodeRow.ret
  | jp nnn => exact Laws.EncodeRow.jp nnn
  | call nnn => exact Laws.EncodeRow.call nnn
  | seImm x nn => exact Laws.EncodeRow.seImm x nn
  | sneImm x nn => exact Laws.EncodeRow.sneImm x nn
  | seReg x y => exact Laws.EncodeRow.seReg x y
  | ldImm x nn => exact Laws.EncodeRow.ldImm x nn
  | addImm x nn => exact Laws.EncodeRow.addImm x nn
  | ldReg x y => exact Laws.EncodeRow.ldReg x y
  | orReg x y => exact Laws.EncodeRow.orReg x y
  | andReg x y => exact Laws.EncodeRow.andReg x y
  | xorReg x y => exact Laws.EncodeRow.xorReg x y
  | addReg x y => exact Laws.EncodeRow.addReg x y
  | sub x y => exact Laws.EncodeRow.sub x y
  | shr x y => exact Laws.EncodeRow.shr x y
  | subn x y => exact Laws.EncodeRow.subn x y
  | shl x y => exact Laws.EncodeRow.shl x y
  | sneReg x y => exact Laws.EncodeRow.sneReg x y
  | ldI nnn => exact Laws.EncodeRow.ldI nnn
  | jpV0 nnn => exact Laws.EncodeRow.jpV0 nnn
  | rnd x nn => exact Laws.EncodeRow.rnd x nn
  | drw x y n => exact Laws.EncodeRow.drw x y n
  | skp x => exact Laws.EncodeRow.skp x
  | sknp x => exact Laws.EncodeRow.sknp x
  | ldVxDt x => exact Laws.EncodeRow.ldVxDt x
  | ldVxK x => exact Laws.EncodeRow.ldVxK x
  | ldDt x => exact Laws.EncodeRow.ldDt x
  | ldSt x => exact Laws.EncodeRow.ldSt x
  | addI x => exact Laws.EncodeRow.addI x
  | ldF x => exact Laws.EncodeRow.ldF x
  | ldB x => exact Laws.EncodeRow.ldB x
  | ldStore x => exact Laws.EncodeRow.ldStore x
  | ldLoad x => exact Laws.EncodeRow.ldLoad x

theorem row_mem_opcodeMap (i : Instr) : i.row ∈ opcodeMap := by
  cases i <;> simp [opcodeMap, Instr.row]

theorem exists_row_of_mem_opcodeMap {r : OpcodeRow} (h : r ∈ opcodeMap) : ∃ i : Instr, i.row = r := by
  simp only [opcodeMap, ← List.map_append] at h
  obtain ⟨i, -, hi⟩ := List.mem_map.mp h
  exact ⟨i, hi⟩

/-- A row covers a word exactly when the word has the row's values at the row's bits (30_encoding.md R56). -/
theorem covers_iff (r : OpcodeRow) (op : Word) : r.covers op = true ↔ op &&& r.mask = r.value :=
  beq_iff_eq

/-- A row that fixes all bits of a field fixes the field to its value's. -/
theorem extractLsb'_eq_of_and {m v : Word} {lo w : Nat} (hm : m.extractLsb' lo w = BitVec.allOnes w)
    (h : op &&& m = v) : op.extractLsb' lo w = v.extractLsb' lo w := by
  rw [← h, BitVec.extractLsb'_and, hm, BitVec.and_allOnes]

/-- Every row fixes the family. -/
theorem fieldOp_of_covers (h : i.row.covers op = true) : fieldOp op = fieldOp i.row.value := by
  refine extractLsb'_eq_of_and ?_ ((covers_iff _ _).mp h)
  cases i <;> simp only [Instr.row] <;> decide

/-- A word that a row covers decodes to an instruction of that row. -/
theorem decode_map_row_of_covers (h : i.row.covers op = true) : (decode op).map Instr.row = .ok i.row := by
  have hand : op &&& i.row.mask = i.row.value := (covers_iff _ _).mp h
  have hf : fieldOp op = fieldOp i.row.value := fieldOp_of_covers h
  cases i with
  | nop | cls | ret =>
    have hop : op &&& BitVec.allOnes 16 = _ := hand
    rw [BitVec.and_allOnes] at hop
    subst hop
    rfl
  | jp | call | seImm | sneImm | ldImm | addImm | ldI | jpV0 | rnd | drw =>
    simp [decode, hf, Instr.row, fieldOp_toNat, Except.map]
  | seReg | sneReg =>
    have hn : fieldN op = fieldN _ := extractLsb'_eq_of_and (m := 0xF00F) (by decide) hand
    simp [decode, hf, hn, Instr.row, fieldOp_toNat, fieldN_toNat, ← BitVec.toNat_inj, Except.map]
  | ldReg | orReg | andReg | xorReg | addReg | sub | shr | subn | shl =>
    have hn : fieldN op = fieldN _ := extractLsb'_eq_of_and (m := 0xF00F) (by decide) hand
    simp [decode, decode8, hf, hn, Instr.row, fieldOp_toNat, fieldN_toNat, Except.map]
  | skp | sknp =>
    have hnn : fieldNN op = fieldNN _ := extractLsb'_eq_of_and (m := 0xF0FF) (by decide) hand
    simp [decode, decodeE, hf, hnn, Instr.row, fieldOp_toNat, fieldNN_toNat, Except.map]
  | ldVxDt | ldVxK | ldDt | ldSt | addI | ldF | ldB | ldStore | ldLoad =>
    have hnn : fieldNN op = fieldNN _ := extractLsb'_eq_of_and (m := 0xF0FF) (by decide) hand
    simp [decode, decodeF, hf, hnn, Instr.row, fieldOp_toNat, fieldNN_toNat, Except.map]

/-- A word that no row covers is unknown: what decodes is covered by the row of what it decodes to. -/
theorem decode_of_not_covered (h : ∀ r ∈ opcodeMap, r.covers op = false) : decode op = .error (.unknown op) := by
  cases hd : decode op with
  | error e => rw [decode_error op e hd]
  | ok i =>
    have hcov : i.row.covers op = true := encode_of_decode hd ▸ row_covers_encode i
    rw [h _ (row_mem_opcodeMap i)] at hcov
    cases hcov

/-! ### The unknown words of the families with several rows -/

theorem decode0_eq_error_iff :
    decode0 op = .error (.unknown op) ↔ op ≠ 0x0000 ∧ op ≠ 0x00E0 ∧ op ≠ 0x00EE := by
  unfold decode0
  split
  · next h => simp [h]
  split
  · next h => simp [h]
  split <;> simp_all

theorem decode8_eq_error_iff :
    decode8 op = .error (.unknown op) ↔ (fieldN op).toNat ∈ [0x8, 0x9, 0xA, 0xB, 0xC, 0xD, 0xF] := by
  have hlt := (fieldN op).isLt
  unfold decode8
  generalize (fieldN op).toNat = n at *
  interval_cases n <;> simp

theorem decodeE_eq_error_iff : decodeE op = .error (.unknown op) ↔ (fieldNN op).toNat ∉ [0x9E, 0xA1] := by
  unfold decodeE
  split <;> simp_all

theorem decodeF_eq_error_iff : decodeF op = .error (.unknown op) ↔
    (fieldNN op).toNat ∉ [0x07, 0x0A, 0x15, 0x18, 0x1E, 0x29, 0x33, 0x55, 0x65] := by
  unfold decodeF
  split <;> simp_all

end

end Sys2Proof

namespace Sys2Proof.Machine

/-! ### The statements -/

/-- Settles O1: each format's packed word has the fields its decoder reads. -/
theorem decodeAfterEncode : Obligations.DecodeAfterEncode :=
  fun _ => decode_encode

/-- Settles O2: packing the fields the decoder read gives the word back. -/
theorem encodeAfterDecode : Obligations.EncodeAfterDecode :=
  fun _ _ h => ⟨encode_of_decode h, wellFormed_of_decode h⟩

/-- Settles O3: two rows that cover one word are both the row of what it decodes to. -/
theorem decodeFollowsOpcodeMap : Obligations.DecodeFollowsOpcodeMap := by
  refine ⟨fun q hq r hr op hqop hrop => ?_, fun op r _ => covers_iff r op, fun op r hr hrop => ?_,
    fun op => decode_of_not_covered⟩
  · obtain ⟨i, rfl⟩ := exists_row_of_mem_opcodeMap hq
    obtain ⟨j, rfl⟩ := exists_row_of_mem_opcodeMap hr
    exact Except.ok.inj ((decode_map_row_of_covers hqop).symm.trans (decode_map_row_of_covers hrop))
  · obtain ⟨i, rfl⟩ := exists_row_of_mem_opcodeMap hr
    have hrow := decode_map_row_of_covers hrop
    cases hd : decode op with
    | error e => rw [hd] at hrow; cases hrow
    | ok j => rw [hd] at hrow; exact ⟨j, rfl, Except.ok.inj hrow⟩

/-- Settles O4: the decoder's families are told apart by the first nibble, and six of them reject some words. -/
theorem unknownEncodings : Obligations.UnknownEncodings := by
  intro op
  rw [← fieldOp_toNat_eq_bits, ← fieldN_toNat_eq_bits, ← fieldNN_toNat_eq_bits]
  unfold decode
  split
  case h_1 hf => simp [hf, decode0_eq_error_iff]
  case h_6 hf | h_10 hf => simp [hf, ← BitVec.toNat_inj]
  case h_9 hf => simp [hf, decode8_eq_error_iff]
  case h_15 hf => simp [hf, decodeE_eq_error_iff]
  case h_16 =>
    have hf : (fieldOp op).toNat = 0xF := by
      have hlt := (fieldOp op).isLt
      simp only [imp_false] at *
      omega
    simp [hf, decodeF_eq_error_iff]
  case h_2 hf | h_3 hf | h_4 hf | h_5 hf | h_7 hf | h_8 hf | h_11 hf | h_12 hf | h_13 hf | h_14 hf => simp [hf]

/-- Settles O5: one word of each format, decoded. -/
theorem writtenOutWordsDecode : Obligations.WrittenOutWordsDecode := by
  unfold Obligations.WrittenOutWordsDecode
  decide

end Sys2Proof.Machine

/-! ## Proofs: what an instruction answers

`violation i s` is the contract violation of an instruction in a state, if there is one, and `answer i s` is the state
it reaches where there is none. `exec_eq` ties both to `exec`, and each fact about every instruction then is a fact
about these two functions, instruction by instruction. -/

namespace Sys2Proof.Machine

/-- The contract violation of `i` in `s`, if there is one (60_exceptions.md section 2). -/
def violation (i : Instr) (s : State) : Option Fault :=
  match i with
  | .ret => if s.stack = [] then some .stackUnderflow else none
  | .call _ => if s.stack.length < s.params.stackDepth then none else some .stackOverflow
  | .drw _ _ n => if s.dataAddr + n ≤ memSize then none else some .memRange
  | .ldB _ => if s.dataAddr + 3 ≤ memSize then none else some .memRange
  | .ldStore x | .ldLoad x => if s.dataAddr + (x.val + 1) ≤ memSize then none else some .memRange
  | .skp x | .sknp x => if (s.reg x).toNat ≤ 0xF then none else some .keyRange
  | _ => none

/-- The state `i` reaches from `s` where it violates nothing: written out for the eight instructions that can fault. -/
def answer (i : Instr) (s : State) : State :=
  match i with
  | .ret => (s.setStack s.stack.dropLast).setPc (s.stack.getLast?.getD 0)
  | .call nnn => (s.setStack (s.stack ++ [s.pc])).setPc (zext16 nnn)
  | .drw x y n => s.drawSprite (Memory.readAll s.params s.mem s.dataAddr n) (s.reg x) (s.reg y)
  | .ldB x => s.setMem (Memory.writeAll s.params s.mem s.dataAddr (decimalDigits (s.reg x)))
  | .ldStore x => (s.setMem (Memory.writeAll s.params s.mem s.dataAddr (s.regsUpTo x))).setI (indexPast s.i x)
  | .ldLoad x => (s.loadRegs (Memory.readAll s.params s.mem s.dataAddr (x.val + 1))).setI (indexPast s.i x)
  | .skp x => s.skipIf (s.kl.mask.getLsbD (s.reg x).toNat)
  | .sknp x => s.skipIf (!s.kl.mask.getLsbD (s.reg x).toNat)
  | i =>
    match exec i s with
    | .next t => t
    | .fault _ | .refused _ => s

section

variable {i : Instr} {s t : State} {reason : Fault}

/-! ### The tie to `exec` -/

theorem exec_eq_of_le_or_lt {a b : Nat} (hv : violation i s = if a ≤ b then none else some reason)
    (h : (a ≤ b ∧ exec i s = .next (answer i s)) ∨ (b < a ∧ exec i s = .next (s.raise reason))) :
    exec i s = .next ((violation i s).elim (answer i s) s.raise) := by
  rcases h with ⟨hle, he⟩ | ⟨hlt, he⟩
  · rw [he, hv, if_pos hle, Option.elim_none]
  · rw [he, hv, if_neg (Nat.not_le.mpr hlt), Option.elim_some]

/-- Every meaning answers a next state: with its violation raised, or its answer. -/
theorem exec_eq (i : Instr) (s : State) : exec i s = .next ((violation i s).elim (answer i s) s.raise) := by
  cases i with
  | ret =>
    rcases exec_ret_cases s with ⟨l, a, hs, he⟩ | ⟨hs, he⟩
    · simp [he, violation, answer, hs]
    · simp [he, violation, hs]
  | call nnn => exact exec_eq_of_le_or_lt rfl ((exec_call_cases s nnn).imp id (.imp_left Nat.lt_succ_of_le))
  | drw x y n => exact exec_eq_of_le_or_lt rfl (exec_drw_cases s x y n)
  | ldB x => exact exec_eq_of_le_or_lt rfl (exec_ldB_cases s x)
  | ldStore x => exact exec_eq_of_le_or_lt rfl (exec_ldStore_cases s x)
  | ldLoad x => exact exec_eq_of_le_or_lt rfl (exec_ldLoad_cases s x)
  | skp x => exact exec_eq_of_le_or_lt rfl (exec_skp_cases s x)
  | sknp x => exact exec_eq_of_le_or_lt rfl (exec_sknp_cases s x)
  | _ => rfl

theorem exec_of_no_violation (h : violation i s = none) : exec i s = .next (answer i s) := by
  rw [exec_eq, h, Option.elim_none]

theorem exec_of_violation (h : violation i s = some reason) : exec i s = .next (s.raise reason) := by
  rw [exec_eq, h, Option.elim_some]

theorem raises_of_violation (h : violation i s = some reason) : Raises (exec i s) reason :=
  ⟨_, exec_of_violation h, rfl, rfl⟩

/-- An answer keeps all that `Untouched` lists. -/
theorem answer_untouched (i : Instr) (s : State) : Untouched s (answer i s) := by
  cases i <;> exact ⟨rfl, rfl, rfl, rfl, rfl, rfl, rfl⟩

/-- An instruction that leaves the block Running violated nothing and reached its answer. -/
theorem eq_answer_of_running (he : exec i s = .next t) (ht : t.status = .running) :
    violation i s = none ∧ t = answer i s := by
  cases hv : violation i s with
  | none => exact ⟨rfl, Host.Outcome.next.inj (he.symm.trans (exec_of_no_violation hv))⟩
  | some reason =>
    rw [exec_of_violation hv] at he
    cases he
    cases ht

/-- An instruction that leaves a Running block Faulted raised its violation. -/
theorem eq_raise_of_faulted (hs : s.status = .running) (he : exec i s = .next t) (ht : t.status = .faulted reason) :
    violation i s = some reason ∧ t = s.raise reason := by
  cases hv : violation i s with
  | none =>
    rw [exec_of_no_violation hv] at he
    cases he
    rw [(answer_untouched i s).status, hs] at ht
    cases ht
  | some r =>
    rw [exec_of_violation hv] at he
    cases he
    cases ht
    exact ⟨rfl, rfl⟩

end

end Sys2Proof.Machine

/-! ## Proofs: the step (40_cycle.md)

One equation for each way a step can end, and what a step that ends Faulted has output. -/

namespace Sys2Proof.Machine

section

variable {s t : State} {op : Word} {i : Instr} {reason : Fault}

/-! ### The ways a step can end -/

theorem step_of_faulted (hs : s.status = .faulted reason) : step s = .fault reason := by
  rw [step, hs]

theorem step_of_fetch_none (hs : s.status = .running) (hf : s.fetch = none) :
    step s = .next s.sampleInputs.timerPhase.failFetch := by
  rw [step, hs, State.fetch_before, hf]

theorem step_of_unknown (hs : s.status = .running) (hf : s.fetch = some op) (hd : decode op = .error (.unknown op)) :
    step s = .next (s.sampleInputs.timerPhase.latchPhase.failDecode op) := by
  rw [step, hs, State.fetch_before, hf]
  simp only [runOpcode, hd]

/-- The step of a Running block answers a next state. -/
theorem exists_step_of_running (hs : s.status = .running) : ∃ t, step s = .next t := by
  rcases step_cases s with ⟨r, hr, -⟩ | ⟨-, -, h⟩ | ⟨op, -, -, -, h⟩ | ⟨op, i, -, -, -, h⟩
  · rw [hs] at hr; cases hr
  · exact ⟨_, h⟩
  · exact ⟨_, h⟩
  · rw [exec_eq] at h; exact ⟨_, h⟩

theorem running_of_step (h : step s = .next t) : s.status = .running := by
  cases hs : s.status with
  | running => rfl
  | faulted reason => rw [step_of_faulted hs] at h; cases h

/-- A step that ends Faulted has that fault as its output (60_exceptions.md R129). -/
theorem out_of_step_faulted (h : step s = .next t) (ht : t.status = .faulted reason) :
    t.out = some (.fault reason) := by
  have hs := running_of_step h
  rcases step_cases s with ⟨r, hr, -⟩ | ⟨-, -, he⟩ | ⟨op, -, -, -, he⟩ | ⟨op, i, -, -, -, he⟩
  · rw [hs] at hr; cases hr
  · rw [he] at h; cases h
    rw [State.failFetch_status, State.timerPhase_status, State.sampleInputs_status, hs] at ht
    cases ht
  · rw [he] at h; cases h
    rw [State.failDecode_status, State.latchPhase_status, State.timerPhase_status, State.sampleInputs_status, hs] at ht
    cases ht
  · rw [he, exec_eq] at h
    cases hv : violation i s.sampleInputs.timerPhase.latchPhase with
    | some r => rw [hv] at h; cases h; cases ht; rfl
    | none =>
      have hu := (answer_untouched i s.sampleInputs.timerPhase.latchPhase).status.trans hs
      rw [hv, Option.elim_none, finish, State.outputPhase_of_running _ i hu] at h
      cases h
      rw [State.setOut_status, hu] at ht
      cases ht

end

/-! ### The outputs -/

theorem reportsRedraw_iff (i : Instr) : reportsRedraw i = true ↔ i = .cls ∨ ∃ x y n, i = .drw x y n := by
  cases i <;> simp [reportsRedraw]

/-- An output that is no `Ok` drives none of REDRAW, FB_OUT and BEEP (40_cycle.md R76). -/
theorem StepOutput.drives_nothing {o : StepOutput} (h : o.code ≠ 0) :
    o.redraw = none ∧ o.fbOut = none ∧ o.beep = none := by
  cases o with
  | ok screen beep => exact absurd rfl h
  | noMoreInstructions | unknownInstruction _ _ | fault _ => exact ⟨rfl, rfl, rfl⟩

/-- Outside memory the fetch finds nothing. -/
theorem State.fetch_of_pc_ge (s : State) (h : 0xFFF ≤ s.pc.toNat) : s.fetch = none :=
  s.fetch_of_gt (by omega)

/-! ### The statements -/

/-- Settles O6: the word whose bytes stand at PC is the word fetched. -/
theorem stepRunsDecodedInstruction : Obligations.StepRunsDecodedInstruction :=
  fun s op i hs hpc hop hd => step_of_decode s op i hs (s.fetch_eq op hpc hop) hd

/-- Settles O7: the increment is exact where the fetch succeeds, and a timer stops at 0. -/
theorem phasesBeforeExecute : Obligations.PhasesBeforeExecute := by
  rintro s u hpc rfl
  simp [tickDown_toNat]
  omega

/-- Settles O8: a failed fetch ends the step in the sampled and ticked state, before the latch. -/
theorem fetchPastMemoryEndsRun : Obligations.FetchPastMemoryEndsRun := by
  refine ⟨fun s hpc => ⟨_, s.fetch_of_le hpc, wordOfBytes_toNat _ _⟩, fun s hs hpc => ?_⟩
  refine ⟨_, step_of_fetch_none hs (s.fetch_of_pc_ge hpc), ?_⟩
  simp [hs, tickDown_toNat]

/-- Settles O9: a word no row covers is unknown, and the step ends after the latch and the increment. -/
theorem unknownOpcodeIsReported : Obligations.UnknownOpcodeIsReported := by
  intro s op hs hpc hop hrows
  refine ⟨_, step_of_unknown hs (s.fetch_eq op hpc hop) (decode_of_not_covered hrows), ?_⟩
  simp [hs, tickDown_toNat]
  omega

/-- Settles O10: a Running end gets its `Ok` outputs from the output phase, and each of the three failures has an output
of another code. -/
theorem okStepOutputs : Obligations.OkStepOutputs := by
  refine ⟨fun s t op i hs hpc hop hd he ht => ?_, fun s t hstep hfail => ?_⟩
  · refine ⟨_, _, step_of_exec s hs (s.fetch_eq op hpc hop) hd he ht, t.beep_eq_true_iff, ?_, fun c hc x y => ?_⟩
    · rw [← reportsRedraw_iff, Option.isSome_ite]
    · obtain ⟨-, hc⟩ := Option.ite_none_right_eq_some.mp hc
      rw [← Option.some.inj hc, pixel_screenCopy]
  · have hs := running_of_step hstep
    rcases hfail with hpc | ⟨op, why, hpc, hop, hd⟩ | ⟨reason, ht⟩
    · rw [step_of_fetch_none hs (s.fetch_of_pc_ge hpc)] at hstep
      cases hstep
      exact ⟨_, rfl, StepOutput.drives_nothing (by decide)⟩
    · rw [step_of_unknown hs (s.fetch_eq op hpc hop) (decode_error op why hd ▸ hd)] at hstep
      cases hstep
      exact ⟨_, rfl, StepOutput.drives_nothing (by simp [StepOutput.code])⟩
    · exact ⟨_, out_of_step_faulted hstep ht, StepOutput.drives_nothing (by simp [StepOutput.code])⟩

/-- Settles O11: the step of a Running block answers a next state, and that of a Faulted one stops with its reason. -/
theorem onlyAFaultedBlockStops : Obligations.OnlyAFaultedBlockStops := by
  intro s
  cases hs : s.status with
  | running =>
    obtain ⟨t, ht⟩ := exists_step_of_running hs
    simp [ht]
  | faulted reason => simp [step_of_faulted hs]

/-- Settles O12: a fault is raised with its own output, and a Faulted block stops. -/
theorem faultLastsForEver : Obligations.FaultLastsForEver :=
  fun _ _ _ _ hstep ht => ⟨out_of_step_faulted hstep ht, step_of_faulted ht⟩

/-- Settles O13: a word placed at PC is the word fetched there. -/
theorem placedWordIsRun : Obligations.PlacedWordIsRun := by
  intro s w i hm hs hpc _ hw
  refine ⟨step_of_decode _ _ i ?_ (s.fetch_placeWord _ hm.1 hpc) ((decodeTableWord_eq_some 16 w i).mp hw),
    fun a => s.readByte_placeWord_of_ne _ hm.1 a⟩
  rw [State.withFetchWord, s.placeWord_of_le _ hpc]
  exact hs

end Sys2Proof.Machine

/-! ## Proofs: what instructions raise, write and read (10_state.md, 60_exceptions.md)

Each statement is about every instruction. `eq_answer_of_running` and `eq_raise_of_faulted` turn it into one about
`answer` and `violation`, which the cases over the instructions compute. -/

namespace Sys2Proof.Machine

section

variable {i : Instr} {s t : State}

/-! ### Reading nothing of a component -/

/-- An update of the state that neither the violation nor the answer of `i` reads, and that the answer keeps. -/
theorem exec_of_unread {f : State → State} {r : State} (hv : violation i (f s) = violation i s)
    (ha : answer i (f s) = r) (he : exec i s = .next t) (ht : t.status = .running) : exec i (f s) = .next r := by
  have h := (eq_answer_of_running he ht).1
  rw [exec_of_no_violation (hv.trans h), ha]

/-! ### The flag -/

theorem eq_vf_of_setReg_changes {x : Reg} {b : Byte} (h : (s.setReg x b).reg vf ≠ s.reg vf) : x = vf := by
  by_contra hx
  exact h (s.reg_setReg_of_ne x vf b (Ne.symm hx))

theorem eq_vf_of_loadRegs_changes {x : Reg} {bs : List Byte} (hbs : bs.length = x.val + 1)
    (h : (s.loadRegs bs).reg vf ≠ s.reg vf) : x = vf := by
  have hx := x.isLt
  rw [State.reg_loadRegs] at h
  split at h
  · next hlt =>
    have hvf : vf.val = 15 := rfl
    exact Fin.ext (by omega)
  · exact absurd rfl h

end

/-! ### The statements -/

/-- Settles O45: `violation` names the fault of each of the eight instructions that have one. -/
theorem eachInstructionsOneFault : Obligations.EachInstructionsOneFault := by
  intro i s t reason hs he ht
  have hv := (eq_raise_of_faulted hs he ht).1
  cases i with
  | ret =>
    obtain ⟨-, h⟩ := Option.ite_none_right_eq_some.mp hv
    cases h
    exact .inl ⟨rfl, rfl⟩
  | call nnn =>
    obtain ⟨-, h⟩ := Option.ite_none_left_eq_some.mp hv
    cases h
    exact .inr (.inl ⟨rfl, _, rfl⟩)
  | drw x y n =>
    obtain ⟨-, h⟩ := Option.ite_none_left_eq_some.mp hv
    cases h
    exact .inr (.inr (.inl ⟨rfl, .inl ⟨x, y, n, rfl⟩⟩))
  | ldB x | ldStore x | ldLoad x =>
    obtain ⟨-, h⟩ := Option.ite_none_left_eq_some.mp hv
    cases h
    exact .inr (.inr (.inl ⟨rfl, .inr ⟨x, by simp⟩⟩))
  | skp x | sknp x =>
    obtain ⟨-, h⟩ := Option.ite_none_left_eq_some.mp hv
    cases h
    exact .inr (.inr (.inr ⟨rfl, x, by simp⟩))
  | _ => cases hv

/-- Settles O46: every other answer leaves the three components as they were. -/
theorem writersOfMemoryScreenAndStack : Obligations.WritersOfMemoryScreenAndStack := by
  intro i s t _ he ht
  obtain ⟨-, rfl⟩ := eq_answer_of_running he ht
  refine ⟨fun h => ?_, fun h => ?_, fun h => ?_⟩
  · cases i with
    | ldB x | ldStore x => exact ⟨x, by simp⟩
    | _ => exact absurd rfl h
  · cases i with
    | cls => exact .inl rfl
    | drw x y n => exact .inr ⟨x, y, n, rfl⟩
    | _ => exact absurd rfl h
  · cases i with
    | ret => exact .inl rfl
    | call nnn => exact .inr ⟨nnn, rfl⟩
    | _ => exact absurd rfl h

/-- Settles O47: an answer that writes one register changes VF only where that register is VF. -/
theorem writersOfFlag : Obligations.WritersOfFlag := by
  intro i s t _ he ht h
  obtain ⟨-, rfl⟩ := eq_answer_of_running he ht
  cases i with
  | orReg x y | andReg x y | xorReg x y | addReg x y | sub x y | subn x y | shr x y | shl x y | drw x y n =>
    exact .inl ⟨x, y, by simp⟩
  | ldImm x nn | addImm x nn | rnd x nn =>
    cases eq_vf_of_setReg_changes h
    exact .inr (.inl ⟨nn, by simp⟩)
  | ldReg x y =>
    cases eq_vf_of_setReg_changes h
    exact .inr (.inr (.inl ⟨y, rfl⟩))
  | ldVxDt x =>
    cases eq_vf_of_setReg_changes h
    exact .inr (.inr (.inr (.inl rfl)))
  | ldVxK x =>
    cases eq_vf_of_setReg_changes h
    exact .inr (.inr (.inr (.inr (.inl rfl))))
  | ldLoad x =>
    cases eq_vf_of_loadRegs_changes (Memory.readAll_length _ _ _ _) h
    exact .inr (.inr (.inr (.inr (.inr rfl))))
  | _ => exact absurd rfl h

/-- Settles O48: every other answer leaves the timers and I as they were, and all keep the latch and the parameters. -/
theorem writersOfIndexAndTimers : Obligations.WritersOfIndexAndTimers := by
  intro i s t _ he ht
  obtain ⟨-, rfl⟩ := eq_answer_of_running he ht
  have hkeep := answer_untouched i s
  refine ⟨fun h => ?_, fun h => ?_, fun h => ?_, hkeep.kl, hkeep.params⟩
  · cases i with
    | ldI nnn => exact .inl ⟨nnn, rfl⟩
    | addI x | ldF x | ldStore x | ldLoad x => exact .inr ⟨x, by simp⟩
    | _ => exact absurd rfl h
  · cases i with
    | ldDt x => exact ⟨x, rfl⟩
    | _ => exact absurd rfl h
  · cases i with
    | ldSt x => exact ⟨x, rfl⟩
    | _ => exact absurd rfl h

/-- Settles O28: RND stands in the answer of `Cxnn` alone. -/
theorem onlyRndReadsRandomByte : Obligations.OnlyRndReadsRandomByte := by
  intro i s t b _ hi he ht
  obtain ⟨-, rfl⟩ := eq_answer_of_running he ht
  refine exec_of_unread (f := fun s => { s with ports := { s.ports with rnd := b } }) ?_ ?_ he ht
  · cases i <;> rfl
  · cases i with
    | rnd x nn => exact absurd rfl (hi x nn)
    | _ => rfl

/-- Settles O49: the latch stands in the answers of `Ex9E`, `ExA1` and `Fx0A` alone. -/
theorem readersOfKeyLatch : Obligations.ReadersOfKeyLatch := by
  intro i s t k _ hi he ht
  obtain ⟨-, rfl⟩ := eq_answer_of_running he ht
  refine exec_of_unread (f := (·.setKl k)) ?_ ?_ he ht
  · cases i <;> rfl
  · cases i with
    | skp x => exact absurd rfl (hi x).1
    | sknp x => exact absurd rfl (hi x).2.1
    | ldVxK x => exact absurd rfl (hi x).2.2
    | _ => rfl

/-- Settles O50: ST stands in no answer, and `Fx18` alone replaces it. -/
theorem noInstructionReadsSoundTimer : Obligations.NoInstructionReadsSoundTimer := by
  intro i s t b _ he ht
  obtain ⟨-, rfl⟩ := eq_answer_of_running he ht
  have hv : violation i (s.setSt b) = violation i s := by cases i <;> rfl
  refine ⟨fun hi => exec_of_unread (f := (·.setSt b)) hv ?_ he ht,
    fun hi => exec_of_unread (f := (·.setSt b)) hv ?_ he ht⟩
  · cases i with
    | ldSt x => exact absurd rfl (hi x)
    | _ => rfl
  · obtain ⟨x, rfl⟩ := hi
    rfl

end Sys2Proof.Machine

/-! ## Proofs: calls, returns and jumps by V0 (41_control_flow.md) -/

namespace Sys2Proof.Machine

/-- The sum of `Bnnn` is exact: a 12-bit address and a byte are at most 0x10FE (41_control_flow.md R87). -/
theorem sumTarget_toNat (nnn : Addr12) (b : Byte) : (sumTarget nnn b).toNat = nnn.toNat + b.toNat := by
  have hn := nnn.isLt
  have hb := b.isLt
  exact (BitVec.toNat_ofNat _ _).trans (Nat.mod_eq_of_lt (by omega))

theorem exec_ret_of_append {s : State} {l : List Word} {a : Word} (h : s.stack = l ++ [a]) :
    exec .ret s = .next ((s.setPc a).setStack l) := by
  simp only [exec, execRet, s.pop_of_append l a h, State.complete_map_ok]
  rfl

theorem exec_call_of_lt {s : State} (nnn : Addr12) (h : s.stack.length < s.params.stackDepth) :
    exec (.call nnn) s = .next ((s.setStack (s.stack ++ [s.pc])).setPc (zext16 nnn)) :=
  exec_of_no_violation (if_pos h)

/-- Settles O15: RET pops the last entry, and an empty stack is its violation. -/
theorem retPopsReturnAddress : Obligations.RetPopsReturnAddress :=
  ⟨encodedExactly_encode rfl, fun _ _ _ => exec_ret_of_append, fun _ hs => raises_of_violation (if_pos hs)⟩

/-- Settles O17: CALL pushes the incremented PC, and a full stack is its violation. -/
theorem callPushesReturnAddress : Obligations.CallPushesReturnAddress :=
  ⟨encodedNNN_of_decode fun op hf => by simp only [decode, hf],
    fun nnn _ h => ⟨_, exec_call_of_lt nnn h, zext16_toNat nnn, rfl⟩,
    fun _ _ h => raises_of_violation (if_neg (Nat.not_lt.mpr h.ge))⟩

/-- Settles O18: the call leaves the old stack with the old PC after it, which is what RET takes apart. -/
theorem retUndoesCall : Obligations.RetUndoesCall := by
  intro nnn s t u hroom hcall hu
  rw [exec_call_of_lt nnn hroom] at hcall
  cases hcall
  exact ⟨_, exec_ret_of_append hu, rfl, rfl⟩

/-- Settles O21: JP V0 writes PC alone, with the exact sum. -/
theorem jpV0AddsV0 : Obligations.JpV0AddsV0 :=
  ⟨encodedNNN_of_decode fun op hf => by simp only [decode, hf],
    fun nnn s => ⟨_, rfl, sumTarget_toNat nnn (s.reg 0), .of_setPc s _⟩⟩

end Sys2Proof.Machine

/-! ## Proofs: the invariant (10_state.md R25, R26)

An execute phase begins with PC between 2 and 0x1000. From there no answer leads past 0x10FE, a call pushes an address
in the bounds of a return address, and the memory operations keep the canonical form. -/

namespace Sys2Proof.Machine

section

variable {i : Instr} {s t : State} {op : Word}

/-! ### PC after an answer -/

theorem skipIf_pc_le (c : Bool) (h : s.pc.toNat ≤ 0x1000) : (s.skipIf c).pc.toNat ≤ 0x10FE := by
  cases c with
  | true => simp [BitVec.toNat_add]; omega
  | false => exact Nat.le_trans h (by decide)

theorem waitTarget_le (pressed : Option Key) {pc : Word} (hlo : 2 ≤ pc.toNat) :
    (waitTarget pressed pc).toNat ≤ pc.toNat := by
  unfold waitTarget
  split
  · simp [BitVec.toNat_sub]; omega
  · exact Nat.le_refl _

/-- PC after an answer is at most 0xFFF + 0xFF, the largest target of `Bnnn` (10_state.md R25). -/
theorem answer_pc_le (hlo : 2 ≤ s.pc.toNat) (hhi : s.pc.toNat ≤ 0x1000)
    (hret : ∀ a ∈ s.stack, a.toNat ≤ 0x1000) (hv : violation i s = none) : (answer i s).pc.toNat ≤ 0x10FE := by
  cases i with
  | ret =>
    have hne : s.stack ≠ [] := by simpa [violation] using hv
    have hpc : (answer .ret s).pc = s.stack.getLast hne := by simp [answer, List.getLast?_eq_some_getLast hne]
    rw [hpc]
    exact Nat.le_trans (hret _ (List.getLast_mem hne)) (by decide)
  | jp nnn | call nnn =>
    have hn := nnn.isLt
    exact (zext16_toNat nnn).trans_le (by omega)
  | jpV0 nnn =>
    have hn := nnn.isLt
    have hb := (s.reg 0).isLt
    exact (sumTarget_toNat nnn (s.reg 0)).trans_le (by omega)
  | seImm _ _ | sneImm _ _ | seReg _ _ | sneReg _ _ | skp _ | sknp _ => exact skipIf_pc_le _ hhi
  | ldVxK x => exact Nat.le_trans (waitTarget_le s.kl.last hlo) (by omega)
  | _ => exact Nat.le_trans hhi (by decide)

/-! ### The stack and memory after an answer -/

theorem answer_stack_length_le (h : s.stack.length ≤ s.params.stackDepth) (hv : violation i s = none) :
    (answer i s).stack.length ≤ s.params.stackDepth := by
  cases i with
  | ret => exact Nat.le_trans (List.length_dropLast.trans_le (Nat.sub_le _ _)) h
  | call nnn =>
    have hroom : s.stack.length < s.params.stackDepth := by simpa [violation] using hv
    simpa [answer] using hroom
  | _ => exact h

/-- A return address after an answer is an old one, or the PC that a call pushed. -/
theorem mem_or_eq_pc_of_mem_answer_stack {a : Word} (h : a ∈ (answer i s).stack) : a ∈ s.stack ∨ a = s.pc := by
  cases i with
  | ret => exact .inl (List.mem_of_mem_dropLast h)
  | call nnn => simpa [answer] using h
  | _ => exact .inl h

theorem answer_mem_wf (h : Memory.wf s.params s.mem) (hv : violation i s = none) :
    Memory.wf s.params (answer i s).mem := by
  cases i with
  | ldB x =>
    have hin : s.dataAddr + 3 ≤ memSize := by simpa [violation] using hv
    exact Memory.wf_writeAll _ (decimalDigits _) _ _ h hin
  | ldStore x =>
    have hin : s.dataAddr + (x.val + 1) ≤ memSize := by simpa [violation] using hv
    exact Memory.wf_writeAll _ (s.regsUpTo x) _ _ h (by rwa [s.regsUpTo_length])
  | _ => exact h

/-! ### The invariant through a step -/

theorem State.Inv.setOut (h : s.Inv) (o : StepOutput) : (s.setOut o).Inv :=
  ⟨h.params, h.memory, h.pc, h.depth, h.returns⟩

theorem State.Inv.outputPhase (h : s.Inv) (i : Instr) : (s.outputPhase i).Inv := by
  rcases s.outputPhase_cases i with ⟨-, he⟩ | ⟨-, he⟩ <;> rw [he]
  · exact h.setOut _
  · exact h

/-- A fault keeps the invariant: memory is canonical by its form, and the rest is asked of a Running block. -/
theorem State.Inv.raise (h : s.Inv) (reason : Fault) : (s.raise reason).Inv :=
  ⟨h.params, Memory.wf_build _ _, fun hs => (nomatch hs), fun hs => (nomatch hs), fun hs => (nomatch hs)⟩

theorem State.Inv.ticked (h : s.Inv) : s.sampleInputs.timerPhase.Inv :=
  ⟨h.params, h.memory, h.pc, h.depth, h.returns⟩

/-- The PC an execute phase finds: two past a fetch inside memory. -/
theorem latched_pc_toNat (hf : s.fetch = some op) :
    s.sampleInputs.timerPhase.latchPhase.pc.toNat = s.pc.toNat + 2 ∧ s.pc.toNat + 2 ≤ 0x1000 :=
  ⟨pc_add_two s.pc (s.fetch_some op hf), s.fetch_some op hf⟩

theorem State.Inv.latched (h : s.Inv) (hf : s.fetch = some op) : s.sampleInputs.timerPhase.latchPhase.Inv := by
  obtain ⟨hpc, hle⟩ := latched_pc_toNat hf
  exact ⟨by simpa using h.params, by simpa using h.memory, fun _ => by omega, by simpa using h.depth,
    by simpa using h.returns⟩

theorem State.Inv.answer (h : s.Inv) (hs : s.status = .running) (hlo : 2 ≤ s.pc.toNat) (hhi : s.pc.toNat ≤ 0x1000)
    (hv : violation i s = none) : (answer i s).Inv := by
  have hp := (answer_untouched i s).params
  refine ⟨hp ▸ h.params, hp ▸ answer_mem_wf h.memory hv,
    fun _ => answer_pc_le hlo hhi (fun a ha => (h.returns hs a ha).2) hv,
    fun _ => hp ▸ answer_stack_length_le (h.depth hs) hv, fun _ a ha => ?_⟩
  rcases mem_or_eq_pc_of_mem_answer_stack ha with ha | rfl
  · exact h.returns hs a ha
  · exact ⟨hlo, hhi⟩

theorem State.Inv.exec (h : s.Inv) (hs : s.status = .running) (hlo : 2 ≤ s.pc.toNat) (hhi : s.pc.toNat ≤ 0x1000)
    (he : exec i s = .next t) : t.Inv := by
  cases hv : violation i s with
  | none =>
    rw [exec_of_no_violation hv] at he
    cases he
    exact h.answer hs hlo hhi hv
  | some reason =>
    rw [exec_of_violation hv] at he
    cases he
    exact h.raise reason

/-! ### Construction -/

/-- What construction from a ROM that fits gives (70_reset_and_hazards.md R140). -/
theorem construct_of_fits (p : Params) {rom : List Byte} (h : RomFits rom) :
    State.construct p rom = .ok { State.reset with params := p, mem := romMemory p rom } := if_pos h

theorem construct_of_too_big (p : Params) {rom : List Byte} (h : romMax < rom.length) :
    State.construct p rom = .error .romTooBig := if_neg (Nat.not_le.mpr h)

theorem romMemory_wf (p : Params) {rom : List Byte} (h : RomFits rom) : Memory.wf p (romMemory p rom) :=
  Memory.wf_writeAll p rom [] romBase ⟨.nil, by simp⟩
    (by simp only [RomFits, romMax, romBase, memSize] at *; omega)

/-- The memory of a block just built: the font, the ROM from `ROM_BASE` on, and zeros (20_memory.md R38). -/
theorem read_romMemory (p : Params) (rom : List Byte) (a : Nat) : Memory.read p (romMemory p rom) a =
    if h : romBase ≤ a ∧ a < romBase + rom.length then rom[a - romBase]'(by omega) else Memory.unlisted p a :=
  Memory.read_writeAll p rom [] romBase a .nil

theorem read_romMemory_of_ge_fontEnd (p : Params) (rom : List Byte) {a : Nat} (h : ¬ a < 0x50) :
    Memory.read p (romMemory p rom) a = if 0x200 ≤ a then (rom[a - 0x200]?).getD 0 else 0 := by
  rw [read_romMemory, Memory.unlisted, dif_neg h]
  by_cases hrom : 0x200 ≤ a
  · rw [if_pos hrom]
    split
    · next hin => rw [List.getElem?_eq_getElem (by simp only [romBase] at hin; omega)]; rfl
    · next hout => rw [List.getElem?_eq_none (by simp only [romBase] at hout; omega)]; rfl
  · rw [if_neg hrom, dif_neg fun h => hrom h.1]

theorem inv_of_construct {p : Params} {rom : List Byte} (hp : p.WellFormed) (h : State.construct p rom = .ok s) :
    s.Inv := by
  by_cases hfits : RomFits rom
  · rw [construct_of_fits p hfits] at h
    cases h
    have hpc : (0x200 : Word).toNat ≤ 0x10FE := by decide
    exact ⟨hp, romMemory_wf p hfits, fun _ => hpc, fun _ => Nat.zero_le _, fun _ _ ha => (nomatch ha)⟩
  · rw [construct_of_too_big p (Nat.not_le.mp hfits)] at h
    cases h

end

/-! ### The statements -/

/-- Settles O53: each way a step can end keeps the invariant. -/
theorem stepKeepsInvariant : Obligations.StepKeepsInvariant := by
  intro s t h hstep
  rcases step_cases s with ⟨r, -, he⟩ | ⟨-, -, he⟩ | ⟨op, -, hf, -, he⟩ | ⟨op, i, hs, hf, -, he⟩
  · rw [he] at hstep; cases hstep
  · rw [he] at hstep; cases hstep
    exact h.ticked.setOut _
  · rw [he] at hstep; cases hstep
    exact (h.latched hf).setOut _
  · obtain ⟨hpc, hle⟩ := latched_pc_toNat hf
    rw [he, exec_eq] at hstep
    cases hstep
    exact ((h.latched hf).exec hs (by omega) (by omega) (exec_eq i _)).outputPhase i

/-- Settles O55: an execute phase begins with PC between 2 and 0x1000 and keeps the invariant. -/
theorem pcNeverWraps : Obligations.PcNeverWraps := by
  rintro s i op h hs hf - u t rfl he ht
  rw [State.fetch_before] at hf
  obtain ⟨hpc, hle⟩ := latched_pc_toNat hf
  have ht' : t.Inv := (h.latched hf).exec hs (by omega) (by omega) he
  refine ⟨by omega, hpc, by omega, ht'.pc ht, fun hskip => ?_, fun hwait => ?_⟩
  · rw [hskip, BitVec.toNat_add_of_lt (by simp; omega)]; rfl
  · rw [hwait, BitVec.toNat_sub_of_le (by simp [BitVec.le_def]; omega)]; rfl

/-- Settles O52: the empty ROM writes no cell. -/
theorem resetIsEmptyConstruction : Obligations.ResetIsEmptyConstruction :=
  construct_of_fits Params.default (Nat.zero_le _)

/-- Settles O54: the reset state is a constructed block too. -/
theorem constructionMeetsInvariant : Obligations.ConstructionMeetsInvariant :=
  ⟨inv_of_construct (by decide) resetIsEmptyConstruction, fun _ _ _ => inv_of_construct⟩

/-- Settles O51: memory is the font and zeros with the ROM written from `ROM_BASE` on, and every other component is that
of the reset state. -/
theorem constructFromRom : Obligations.ConstructFromRom := by
  refine fun p rom => ⟨fun hfits => ⟨_, construct_of_fits p hfits, rfl, fun a _ => ?_, fun r => ?_, rfl, rfl, rfl,
    rfl, rfl, fun x y => ?_, rfl, rfl, rfl⟩, construct_of_too_big p⟩
  · by_cases hfont : a < 0x50
    · rw [dif_pos hfont, State.readByte, read_romMemory, dif_neg (by simp only [romBase]; omega), Memory.unlisted,
        dif_pos hfont]
    · rw [dif_neg hfont, State.readByte, read_romMemory_of_ge_fontEnd p rom hfont]
  · simp [State.reg, State.reset]
  · exact fbCell_fbClear x y

end Sys2Proof.Machine

/-! ## Proofs: shifts, RND, the index sum and keys (42_alu.md, 43_index_memory.md, 45_keys_timers.md) -/

namespace Sys2Proof.Machine

/-! ### The byte operations and bits, on naturals -/

@[simp] theorem halfByte_toNat (a : Byte) : (halfByte a).toNat = a.toNat / 2 := by
  have ha := a.isLt
  exact (BitVec.toNat_ofNat _ _).trans (Nat.mod_eq_of_lt (by omega))

@[simp] theorem doubleByte_toNat (a : Byte) : (doubleByte a).toNat = 2 * a.toNat % 256 :=
  BitVec.toNat_ofNat _ _

@[simp] theorem keyByte_toNat (k : Key) : (keyByte k).toNat = k.val := by
  have hk := k.isLt
  exact (BitVec.toNat_ofNat _ _).trans (Nat.mod_eq_of_lt (by omega))

theorem getLsbD_eq_decide {w : Nat} (a : BitVec w) (k : Nat) : a.getLsbD k = decide (a.toNat / 2 ^ k % 2 = 1) :=
  Nat.testBit_eq_decide_div_mod_eq

/-- A flag that is one bit of a byte. -/
theorem flagByte_getLsbD_toNat (a : Byte) (k : Nat) : (flagByte (a.getLsbD k)).toNat = a.toNat / 2 ^ k % 2 := by
  rw [flagByte_toNat, getLsbD_eq_decide]
  rcases Nat.mod_two_eq_zero_or_one (a.toNat / 2 ^ k) with h | h <;> simp [h]

theorem flagByte_lowBit_toNat (a : Byte) : (flagByte (lowBit a)).toNat = a.toNat % 2 := by
  rw [lowBit, flagByte_getLsbD_toNat, Nat.pow_zero, Nat.div_one]

theorem flagByte_highBit_toNat (a : Byte) : (flagByte (highBit a)).toNat = a.toNat / 128 := by
  have ha := a.isLt
  rw [highBit, flagByte_getLsbD_toNat]
  omega

section

variable {i : Instr} {s : State} {x : Reg}

/-! ### A flag and then a register -/

/-- A meaning that writes the flag and then a result: the result stays when x = F (40_cycle.md R73). -/
theorem exec_writes_flag_then_reg {b f : Byte} (he : exec i s = .next (s.setFlagThenReg x b f)) :
    ∃ t, exec i s = .next t ∧ SameButV s t ∧ t.reg x = b ∧ (x ≠ vf → t.reg vf = f) ∧
      ∀ r, r ≠ x → r ≠ vf → t.reg r = s.reg r := by
  refine ⟨_, he, rfl, State.reg_setReg_self _ x b, fun hx => ?_, fun r hrx hrf => ?_⟩
  · rw [State.setFlagThenReg, State.reg_setReg_of_ne _ x vf b hx.symm, s.reg_setReg_self]
  · rw [State.setFlagThenReg, State.reg_setReg_of_ne _ x r b hrx, s.reg_setReg_of_ne vf r f hrf]

/-! ### Keys -/

theorem decode_of_familyE {op : Word} (hf : (fieldOp op).toNat = 0xE) : decode op = decodeE op := by
  simp only [decode, hf]

theorem encodedX_of_decodeE {l : Nat} {mk : Reg → Instr}
    (h : ∀ op, (fieldNN op).toNat = l → decodeE op = .ok (mk (fieldX op))) : EncodedX 0xE l mk :=
  encodedX_of_decode fun op hf hl => (decode_of_familyE hf).trans (h op hl)

/-- Writing to a register what it holds changes nothing. -/
theorem State.setReg_reg (s : State) (x : Reg) : s.setReg x (s.reg x) = s := by
  rw [State.setReg, State.reg, Vector.set_getElem_self]
  rfl

theorem exec_ldVxK_of_some {k : Key} (h : s.kl.last = some k) :
    exec (.ldVxK x) s = .next (s.setReg x (keyByte k)) := by
  simp only [exec, execLdVxK, h]
  rfl

theorem exec_ldVxK_of_none (h : s.kl.last = none) : exec (.ldVxK x) s = .next (s.setPc (s.pc - 2)) := by
  simp only [exec, execLdVxK, h, keyOr, s.setReg_reg]
  rfl

end

/-! ### The statements -/

/-- Settles O26: both meanings write the flag of the old Vx, and then the shifted Vy. -/
theorem shiftsTakeVyAndFlagVx : Obligations.ShiftsTakeVyAndFlagVx := by
  refine ⟨encodedXY_of_decode8 fun op hn => by simp only [decode8, hn],
    encodedXY_of_decode8 fun op hn => by simp only [decode8, hn], fun x y s => ⟨?_, ?_⟩⟩
  · obtain ⟨t, ht, hsame, hx, hvf, hother⟩ := exec_writes_flag_then_reg (i := .shr x y) (s := s) rfl
    exact ⟨t, ht, hsame, by rw [hx, halfByte_toNat], fun hne => by rw [hvf hne, flagByte_lowBit_toNat], hother⟩
  · obtain ⟨t, ht, hsame, hx, hvf, hother⟩ := exec_writes_flag_then_reg (i := .shl x y) (s := s) rfl
    exact ⟨t, ht, hsame, by rw [hx, doubleByte_toNat], fun hne => by rw [hvf hne, flagByte_highBit_toNat], hother⟩

/-- Settles O27: RND writes one register, with the AND of two bytes. -/
theorem rndMasksRandomByte : Obligations.RndMasksRandomByte := by
  refine ⟨encodedXNN_of_decode fun op hf => by simp only [decode, hf], fun x nn s => ?_⟩
  obtain ⟨t, ht, hx, hother, hsame⟩ := exec_writes_reg (i := .rnd x nn) (s := s) rfl
  exact ⟨t, ht, hsame, fun k => by rw [hx, BitVec.getLsbD_and], hother⟩

/-- Settles O30: ADD I writes I alone, with the 16-bit sum. -/
theorem addIWrapsAtSixteenBits : Obligations.AddIWrapsAtSixteenBits :=
  ⟨encodedX_of_decodeF fun op hnn => by simp only [decodeF, hnn],
    fun x s => ⟨_, rfl, BitVec.toNat_ofNat _ _, fun _ => rfl, .of_setI s _⟩⟩

/-- Settles O41: both meanings skip on a bit of the latched mask, and a Vx above 0xF is their violation. -/
theorem keySkips : Obligations.KeySkips := by
  refine ⟨encodedX_of_decodeE fun op hnn => by simp only [decodeE, hnn],
    encodedX_of_decodeE fun op hnn => by simp only [decodeE, hnn],
    fun x s hkey => ⟨⟨_, exec_of_no_violation (if_pos hkey), .of_skipIf s _, ?_⟩,
      ⟨_, exec_of_no_violation (if_pos hkey), .of_skipIf s _, ?_⟩⟩,
    fun x s hkey => ⟨raises_of_violation (if_neg (Nat.not_le.mpr hkey)),
      raises_of_violation (if_neg (Nat.not_le.mpr hkey))⟩⟩
  · simp [answer, getLsbD_eq_decide]
  · simp [answer, getLsbD_eq_decide]

/-- Settles O42: the latched last key decides between writing Vx and putting PC back. -/
theorem waitKeyTakesLastPressed : Obligations.WaitKeyTakesLastPressed := by
  refine ⟨encodedX_of_decodeF fun op hnn => by simp only [decodeF, hnn], fun x s k hk => ?_,
    fun x s hk => ⟨_, exec_ldVxK_of_none hk, .of_setPc s _, rfl⟩⟩
  obtain ⟨t, ht, hx, hother, hsame⟩ := exec_writes_reg (exec_ldVxK_of_some (x := x) hk)
  exact ⟨t, ht, hsame, by rw [hx, keyByte_toNat], hother⟩

/-- Settles O43: the latch of the step holds its KEYS, so the meaning undoes the increment. -/
theorem waitingStepKeepsPc : Obligations.WaitingStepKeepsPc := by
  intro s op x hs hpc hop hd hkeys
  have hlatch : s.sampleInputs.timerPhase.latchPhase.kl.last = none := hkeys
  have hstep := step_of_exec s hs (s.fetch_eq op hpc hop) hd (exec_ldVxK_of_none hlatch) (by simpa using hs)
  refine ⟨_, hstep, ⟨_, _, rfl⟩, ?_⟩
  simp [hs]

end Sys2Proof.Machine

/-! ## Proofs: stores and loads (20_memory.md, 43_index_memory.md)

Both follow from the laws of one read after the bytes written, and one register after the bytes loaded. -/

namespace Sys2Proof.Machine

section

variable {s : State} {x : Reg}

/-! ### The bytes read and written -/

/-- Byte `k` of a range read, as an optional entry of the list. -/
theorem readAll_getElem?_eq (s : State) {a n k : Nat} (h : k < n) :
    (Memory.readAll s.params s.mem a n)[k]? = some (s.readByte (a + k)) := by
  rw [List.getElem?_eq_getElem (by rwa [Memory.readAll_length]), Memory.readAll_getElem]
  rfl

theorem decimalDigits_toNat (b : Byte) : (decimalDigits b).map BitVec.toNat =
    [b.toNat / 100, b.toNat / 10 % 10, b.toNat % 10] := by
  have hb := b.isLt
  simp [decimalDigits]
  omega

/-- `I + x + 1` is exact where the access was in bounds (43_index_memory.md R106, R107). -/
theorem indexPast_toNat {i : Word} (h : i.toNat + x.val + 1 ≤ 0x1000) : (indexPast i x).toNat = i.toNat + x.val + 1 :=
  (BitVec.toNat_ofNat _ _).trans (Nat.mod_eq_of_lt (by omega))

/-! ### What `Fx33`, `Fx55` and `Fx65` answer -/

/-- `Fx33`: byte I + k becomes the k-th decimal digit of Vx. -/
theorem readByte_answer_ldB (hm : Rising s.mem) {k d : Nat}
    (hd : [(s.reg x).toNat / 100, (s.reg x).toNat / 10 % 10, (s.reg x).toNat % 10][k]? = some d) :
    ((answer (.ldB x) s).readByte (s.dataAddr + k)).toNat = d := by
  rw [← decimalDigits_toNat] at hd
  obtain ⟨hk, rfl⟩ := List.getElem?_eq_some_iff.mp hd
  rw [List.length_map] at hk
  rw [List.getElem_map]
  exact congrArg BitVec.toNat (s.readByte_writeAll_add s.dataAddr k _ hm hk)

/-- `Fx55`: byte I + r becomes Vr for each r up to x. -/
theorem readByte_answer_ldStore (hm : Rising s.mem) {r : Reg} (hr : r.val ≤ x.val) :
    (answer (.ldStore x) s).readByte (s.dataAddr + r.val) = s.reg r := by
  have hlen : r.val < (s.regsUpTo x).length := by rw [s.regsUpTo_length]; omega
  exact (s.readByte_writeAll_add s.dataAddr r.val _ hm hlen).trans (s.regsUpTo_getElem x r.val hlen)

/-- `Fx55`: every other byte is as it was. -/
theorem readByte_answer_ldStore_of_out (hm : Rising s.mem) {a : Nat}
    (out : a < s.dataAddr ∨ s.dataAddr + x.val + 1 ≤ a) : (answer (.ldStore x) s).readByte a = s.readByte a :=
  s.readByte_writeAll_of_out s.dataAddr a _ hm (by rw [s.regsUpTo_length]; omega)

/-- `Fx65`: Vr becomes byte I + r for each r up to x, and stays for the others. -/
theorem reg_answer_ldLoad (s : State) (x r : Reg) :
    (answer (.ldLoad x) s).reg r = if r.val ≤ x.val then s.readByte (s.dataAddr + r.val) else s.reg r := by
  have h := s.reg_loadRegs (Memory.readAll s.params s.mem s.dataAddr (x.val + 1)) r
  simp only [Memory.readAll_length, Nat.lt_succ_iff, Memory.readAll_getElem] at h
  rw [dite_eq_ite] at h
  exact h

theorem exec_ldStore_of_le (h : s.dataAddr + x.val + 1 ≤ 0x1000) :
    exec (.ldStore x) s = .next (answer (.ldStore x) s) :=
  exec_of_no_violation (if_pos h)

theorem exec_ldLoad_of_le (h : s.dataAddr + x.val + 1 ≤ 0x1000) :
    exec (.ldLoad x) s = .next (answer (.ldLoad x) s) :=
  exec_of_no_violation (if_pos h)

end

/-! ### The statements -/

/-- Settles O35: both primitives test the whole range first, and the laws of memory say what they then do. -/
theorem memoryPrimitives : Obligations.MemoryPrimitives := by
  refine fun s a => ⟨fun n h => ⟨_, s.memRead_eq a n h, Memory.readAll_length _ _ _ _, fun k hk =>
      readAll_getElem?_eq s hk⟩,
    fun n h => s.memRead_of_gt a n h, fun bs hm h => ?_, fun bs h => s.memWrite_of_gt a bs h⟩
  refine ⟨_, s.memWrite_eq a bs h, rfl, Memory.wf_writeAll _ bs _ a hm h, fun k hk => ?_,
    fun c out => s.readByte_writeAll_of_out a c bs hm.1 out⟩
  rw [s.readByte_writeAll_add a k bs hm.1 hk, List.getElem?_eq_getElem hk]

/-- Settles O31: the three digits are written at I, and each fits in a byte. -/
theorem bcdStoresDigits : Obligations.BcdStoresDigits :=
  ⟨encodedX_of_decodeF fun op hnn => by simp only [decodeF, hnn],
    fun _ s hm h => ⟨_, exec_of_no_violation (if_pos h), rfl, readByte_answer_ldB (k := 0) hm.1 rfl,
      readByte_answer_ldB (k := 1) hm.1 rfl, readByte_answer_ldB (k := 2) hm.1 rfl,
      fun a out => s.readByte_writeAll_of_out _ a _ hm.1 out⟩,
    fun _ _ h => raises_of_violation (if_neg (Nat.not_le.mpr h))⟩

/-- Settles O32: V0 to Vx written at I, and I past them. -/
theorem storeWritesRegisters : Obligations.StoreWritesRegisters :=
  ⟨encodedX_of_decodeF fun op hnn => by simp only [decodeF, hnn],
    fun _ _ hm h => ⟨_, exec_ldStore_of_le h, rfl, indexPast_toNat h, fun _ => readByte_answer_ldStore hm.1,
      fun _ => readByte_answer_ldStore_of_out hm.1⟩,
    fun _ _ h => raises_of_violation (if_neg (Nat.not_le.mpr h))⟩

/-- Settles O33: V0 to Vx read from I, and I past them. -/
theorem loadReadsRegisters : Obligations.LoadReadsRegisters :=
  ⟨encodedX_of_decodeF fun op hnn => by simp only [decodeF, hnn],
    fun x s h => ⟨_, exec_ldLoad_of_le h, rfl, indexPast_toNat h,
      fun r hr => (reg_answer_ldLoad s x r).trans (if_pos hr),
      fun r hr => (reg_answer_ldLoad s x r).trans (if_neg (Nat.not_le.mpr hr))⟩,
    fun _ _ h => raises_of_violation (if_neg (Nat.not_le.mpr h))⟩

/-- Settles O34: the load reads the bytes the store wrote. -/
theorem storeLoadRoundTrip : Obligations.StoreLoadRoundTrip := by
  intro x s t u hm h hstore hmem hparams hi
  rw [exec_ldStore_of_le h] at hstore
  cases hstore
  have haddr : u.dataAddr = s.dataAddr := congrArg BitVec.toNat hi
  refine ⟨_, exec_ldLoad_of_le (haddr ▸ h), congrArg (indexPast · x) hi, fun r hr => ?_⟩
  calc (answer (.ldLoad x) u).reg r = u.readByte (u.dataAddr + r.val) := (reg_answer_ldLoad u x r).trans (if_pos hr)
    _ = (answer (.ldStore x) s).readByte (s.dataAddr + r.val) := by
      rw [State.readByte, State.readByte, hmem, hparams, haddr]
    _ = s.reg r := readByte_answer_ldStore hm.1 hr

/-- Settles O36: the two bytes fetched at I are the first two of those stored there. -/
theorem fetchSeesStore : Obligations.FetchSeesStore := by
  intro x s t hm h hx hstore
  rw [exec_ldStore_of_le h] at hstore
  cases hstore
  have h0 : (answer (.ldStore x) s).readByte (s.dataAddr + 0) = s.reg 0 :=
    readByte_answer_ldStore (r := 0) hm.1 (Nat.zero_le _)
  have h1 : (answer (.ldStore x) s).readByte (s.dataAddr + 1) = s.reg 1 :=
    readByte_answer_ldStore (r := 1) hm.1 hx
  have hpc : s.i.toNat + 2 ≤ 0x1000 := by
    have : s.dataAddr = s.i.toNat := rfl
    omega
  refine ⟨_, State.fetch_of_le _ hpc, ?_⟩
  rw [wordOfBytes_toNat]
  exact congrArg₂ (fun hi lo : Byte => hi.toNat * 256 + lo.toNat) h0 h1

end Sys2Proof.Machine

/-! ## Proofs: sprites (44_display.md)

The laws of the rasterizer say that drawing inverts a set of cells; that set is `spriteCovers`. -/

namespace Sys2Proof.Machine

section

/-! ### The cells a draw inverts -/

/-- Among the 8 columns of a sprite row, the one drawn on column `c` of the screen. -/
theorem any_column_eq (b : Byte) (x0 c : Nat) :
    ((List.range 8).any fun k => decide (x0 + k = c) && rowBit b k) =
      (decide (x0 ≤ c) && decide (c < x0 + 8) && b.getLsbD (7 - (c - x0))) := by
  rw [Bool.eq_iff_iff]
  simp only [List.any_eq_true, List.mem_range, Bool.and_eq_true, decide_eq_true_eq, rowBit]
  constructor
  · rintro ⟨k, hk, rfl, hbit⟩
    exact ⟨⟨by omega, by omega⟩, by rwa [Nat.add_sub_cancel_left]⟩
  · rintro ⟨⟨hlo, hhi⟩, hbit⟩
    exact ⟨c - x0, by omega, by omega, hbit⟩

/-- Drawing a sprite inverts the cells it covers (44_display.md R109, R110). -/
theorem draw_xors (fb : Framebuffer) (sprite : List Byte) (vx vy : Byte) :
    Xors (spriteCovers sprite vx vy) (fb, false) (draw fb sprite vx vy) := by
  refine (drawRows_xors (vx.toNat % 64) sprite (vy.toNat % 32) (fb, false)).congr fun x y => ?_
  simp only [any_column_eq, spriteCovers]
  cases sprite[y.val - vy.toNat % 32]? <;> simp [Bool.and_assoc]

variable (fb : Framebuffer) (sprite : List Byte) (vx vy : Byte)

theorem fbCell_draw (x : Column) (y : Row) :
    fbCell (draw fb sprite vx vy).1 x y = (fbCell fb x y ^^ spriteCovers sprite vx vy x y) :=
  (draw_xors fb sprite vx vy).cells x y

theorem draw_collides_iff : (draw fb sprite vx vy).2 = true ↔
    ∃ (x : Column) (y : Row), fbCell fb x y = true ∧ spriteCovers sprite vx vy x y = true := by
  simpa using (draw_xors fb sprite vx vy).collision

/-- A collision is a cell that goes from set to unset. -/
theorem draw_collides_iff_unsets : (draw fb sprite vx vy).2 = true ↔
    ∃ (x : Column) (y : Row), fbCell fb x y = true ∧ fbCell (draw fb sprite vx vy).1 x y = false := by
  rw [draw_collides_iff]
  refine exists_congr fun x => exists_congr fun y => and_congr_right fun hset => ?_
  rw [fbCell_draw, hset, Bool.true_xor, Bool.not_eq_false']

end

/-! ### DRW -/

section

variable (s : State) (sprite : List Byte) (vx vy : Byte)

theorem State.drawSprite_reg_vf : (s.drawSprite sprite vx vy).reg vf = flagByte (draw s.fb sprite vx vy).2 :=
  State.reg_setReg_self _ vf _

theorem State.drawSprite_reg_of_ne {r : Reg} (h : r ≠ vf) : (s.drawSprite sprite vx vy).reg r = s.reg r :=
  State.reg_setReg_of_ne _ vf r _ h

theorem flagByte_eq_one_iff (c : Bool) : flagByte c = 1 ↔ c = true := by
  cases c <;> decide

theorem flagByte_eq_one_or_zero (c : Bool) : flagByte c = 1 ∨ flagByte c = 0 := by
  cases c
  · exact .inr rfl
  · exact .inl rfl

end

theorem decode_of_familyD {op : Word} (hf : (fieldOp op).toNat = 0xD) :
    decode op = .ok (.drw (fieldX op) (fieldY op) (fieldN op).toNat) := by
  simp only [decode, hf]

/-! ### The statements -/

/-- Settles O37: a draw inverts exactly the cells its sprite covers. -/
theorem drawXorsSprite : Obligations.DrawXorsSprite :=
  fun fb sprite vx vy => ⟨fbCell_draw fb sprite vx vy, draw_collides_iff fb sprite vx vy⟩

/-- Settles O38: inverting twice changes nothing, and the first draw sets what was unset for the second. -/
theorem drawTwiceRestores : Obligations.DrawTwiceRestores := by
  refine fun fb sprite vx vy => ⟨fb_ext fun x y => ?_, fun ⟨x, y, hunset, hcovers⟩ => ?_⟩
  · rw [fbCell_draw, fbCell_draw, Bool.xor_assoc, Bool.xor_self, Bool.xor_false]
  · exact (draw_collides_iff _ sprite vx vy).mpr ⟨x, y, by rw [fbCell_draw, hunset, hcovers]; rfl, hcovers⟩

/-- Settles O40: DRW draws the bytes read at I, and VF is the collision. -/
theorem drwDrawsMemory : Obligations.DrwDrawsMemory := by
  refine ⟨fun op hf => ⟨_, _, _, decode_of_familyD ((fieldOp_toNat_eq_bits op).trans hf), fieldX_val op,
      fieldY_val op, fieldN_toNat_eq_bits op⟩,
    fun _ _ _ => rfl, fun x y n s h => ?_, fun _ _ _ _ h => raises_of_violation (if_neg (Nat.not_le.mpr h))⟩
  refine ⟨_, Memory.readAll s.params s.mem s.dataAddr n, exec_of_no_violation (if_pos h), rfl,
    Memory.readAll_length _ _ _ _, fun k hk => readAll_getElem?_eq s hk, fbCell_draw s.fb _ _ _, ?_, ?_,
    fun r hr => s.drawSprite_reg_of_ne _ _ _ hr⟩
  · exact (s.drawSprite_reg_vf _ _ _).symm ▸ flagByte_eq_one_or_zero _
  · exact (s.drawSprite_reg_vf _ _ _).symm ▸ (flagByte_eq_one_iff _).trans (draw_collides_iff_unsets s.fb _ _ _)

end Sys2Proof.Machine
